-- ==== Sys2Proof/Word.lean ====
section
/-! DEFINITION. The two word types the spec fixes: an 8-bit byte or character, and a 4-bit nibble
(`00_scope.md` R7: `CHAR_W = 8`, `NIB_W = 4`; neither is configurable). Every value is unsigned (R11). -/

namespace Sys2Proof

/-- An 8-bit byte of a binary buffer, or an 8-bit character of a hex buffer (R7). -/
abbrev Byte := BitVec 8

/-- A 4-bit nibble, 0 to 15 (R7). -/
abbrev Nibble := BitVec 4

end Sys2Proof
end

