-- ==== Sys2Proof/Config.lean ====
section
/-! DEFINITION. What one piece of hardware fixes and the spec leaves open: the parameters of
`00_scope.md` R8, and the free value `DEC_INVALID` (R123). The constant table `HEXTAB` (R26) is
`Sys2Proof.Machine.hexTab`. -/

namespace Sys2Proof

/-- The OPEN widths of R8. They are arguments of the model: a machine carries its own in its state,
no step changes them, and a statement over every state holds for every value of them.
`N_INST` is the number of blocks of the state. -/
structure Params where
  /-- `AW`: the width of a memory address, in bits (D6). -/
  aw : Nat
  /-- `LW`: the width of a length, a capacity, a count and the response, in bits (D7). -/
  lw : Nat
  deriving DecidableEq, Repr

/-- The bounds R8 puts on the parameters: `AW >= 1` and `LW >= 8`. -/
abbrev Params.Valid (p : Params) : Prop := 1 ≤ p.aw ∧ 8 ≤ p.lw

/-- `CW`, the width of the command word: `11 + 2*AW + 2*LW` (R8, R71). -/
def Params.cw (p : Params) : Nat := 11 + 2 * p.aw + 2 * p.lw

/-- The reference values of R8, `AW = LW = 16`: those of the op-code table and of `95_test_vectors.md`. -/
def Params.reference : Params := { aw := 16, lw := 16 }

/-- `DEC_INVALID` (R8, R123, U1): what the nibble decoder answers for a character that is no hex digit.
A function of the character alone, of which nothing is known; it is given no body (log 2). -/
opaque Config.decInvalid : Byte → Nibble

/-- The identity strings a model may carry (R3): the repository. -/
def Config.repository : String := "stedonet/chex"

/-- The identity strings a model may carry (R3): the block's name (R1). -/
def Config.blockName : String := "hex_nibble_encoder"

/-- The identity strings a model may carry (R3): the document id. -/
def Config.documentId : String := "the source"

end Sys2Proof
end

