-- ==== Sys2Proof/Syntax.lean ====
section
/-! DEFINITION. The five operations (`30_encoding.md` R73, `00_scope.md` R1), one constructor per row
of spec/opcode_table.json, each with its used operands in the source's order (R72, R80). Addresses and
lengths are plain numbers, as R9 and R75 compute with them; that they fit `AW` and `LW` bits is
`Instr.WellFormed`. Then the assembly text (R80) and the two pseudo-operations (R81). -/

namespace Sys2Proof

/-- One command of the block. Fields an operation ignores (R74) are no part of it. -/
inductive Instr where
  /-- `op = 0`: classify the character `c`. -/
  | isHexDigit (c : Byte)
  /-- `op = 1`: the lowercase hex digit of `v[3:0]`. -/
  | nibbleToHexChar (v : Byte)
  /-- `op = 2`: the 4-bit value of the hex digit `h`. -/
  | hexCharToNibble (h : Byte)
  /-- `op = 3`: encode `blen` bytes at `src` into at most `hlen` characters at `dst`. -/
  | encodeBuffer (dst hlen src blen : Nat)
  /-- `op = 4`: decode `hlen` characters at `src` into at most `blen` bytes at `dst`. -/
  | decodeBuffer (dst blen src hlen : Nat)
  deriving DecidableEq, Repr

/-- The mnemonics of R73 and R80. -/
def Instr.mnemonic : Instr → String
  | .isHexDigit _ => "is_hex_digit"
  | .nibbleToHexChar _ => "nibble_to_hex_char"
  | .hexCharToNibble _ => "hex_char_to_nibble"
  | .encodeBuffer .. => "encode_buffer"
  | .decodeBuffer .. => "decode_buffer"

/-- The operands in the source's argument order, as numbers (R72, R80). -/
def Instr.operands : Instr → List Nat
  | .isHexDigit c => [c.toNat]
  | .nibbleToHexChar v => [v.toNat]
  | .hexCharToNibble h => [h.toNat]
  | .encodeBuffer dst hlen src blen => [dst, hlen, src, blen]
  | .decodeBuffer dst blen src hlen => [dst, blen, src, hlen]

/-- The assembly text of a command (R80): the mnemonic, then the operands in parentheses, separated
by commas. Every operand is written as a decimal number. -/
def Instr.text (i : Instr) : String :=
  i.mnemonic ++ "(" ++ ", ".intercalate (i.operands.map toString) ++ ")"

/-- The pseudo-operations of R81, with the place and length of their argument. -/
inductive Pseudo where
  /-- `encode(B)`, for `len` bytes held at `src`. -/
  | encode (src len : Nat)
  /-- `decode(H)`, for `len` characters held at `src`. -/
  | decode (src len : Nat)
  deriving DecidableEq, Repr

/-- The least destination capacity R81 allows: `2*L` for `encode`, `floor(M / 2)` for `decode`. -/
def Pseudo.need : Pseudo → Nat
  | .encode _ len => 2 * len
  | .decode _ len => len / 2

/-- The command a pseudo-operation expands to, into a destination `dst` of capacity `cap` (R81); an
expansion is one only where `need ≤ cap`. -/
def Pseudo.expand (dst cap : Nat) : Pseudo → Instr
  | .encode src len => .encodeBuffer dst cap src len
  | .decode src len => .decodeBuffer dst cap src len

end Sys2Proof
end

