-- ==== Sys2Proof/WellFormed.lean ====
section
/-! DEFINITION. Which terms of `Instr` are commands of a machine with given parameters: each address
fits `AW` bits and each length `LW` bits (`30_encoding.md` R71, R75). Nothing else is checked: within
the five op-codes every value of every used field is legal (R76). -/

namespace Sys2Proof

/-- The four buffer operands fit their fields (R71). -/
abbrev Params.FieldsFit (p : Params) (dst dcap src slen : Nat) : Prop :=
  dst < 2 ^ p.aw ∧ dcap < 2 ^ p.lw ∧ src < 2 ^ p.aw ∧ slen < 2 ^ p.lw

/-- An instruction every operand of which fits its field of the command word (R71, R75). -/
abbrev Instr.WellFormed (p : Params) : Instr → Prop
  | .isHexDigit _ => True
  | .nibbleToHexChar _ => True
  | .hexCharToNibble _ => True
  | .encodeBuffer dst hlen src blen => p.FieldsFit dst hlen src blen
  | .decodeBuffer dst blen src hlen => p.FieldsFit dst blen src hlen

/-- The same check as a Bool, for a test to run. -/
def Instr.wellFormed (p : Params) : Instr → Bool
  | .isHexDigit _ => true
  | .nibbleToHexChar _ => true
  | .hexCharToNibble _ => true
  | .encodeBuffer dst hlen src blen => decide (p.FieldsFit dst hlen src blen)
  | .decodeBuffer dst blen src hlen => decide (p.FieldsFit dst blen src hlen)

end Sys2Proof
end

