-- ==== Sys2Proof/Decode.lean ====
section
/-! DEFINITION. The command word (`30_encoding.md` R71 to R76): its fields, the decoder, the encoder,
and `decodeTableWord`. A command word is a number below `2^CW`; it arrives whole at the command port,
so no byte order is involved (R44, R71). -/

namespace Sys2Proof

/-- Why a number is no command. -/
inductive DecodeError where
  /-- The number does not fit `CW` bits, so it is no command word (R71). -/
  | notACommandWord (w : Nat)
  /-- `op` is 5, 6 or 7, which select no operation (R76). -/
  | reservedOp (op : Nat)
  deriving DecidableEq, Repr

/-- The slice of `width` bits of `w` from bit `lo` up, as an unsigned number (R10). -/
def bitsAt (w lo width : Nat) : Nat := w / 2 ^ lo % 2 ^ width

/-- Field `op`, bits [2:0] (R71). -/
def opField (w : Nat) : Nat := bitsAt w 0 3

/-- Field `a`, bits [10:3] (R71). -/
def aField (w : Nat) : Byte := BitVec.ofNat 8 (bitsAt w 3 8)

/-- Field `dst`, bits [10+AW : 11] (R71). -/
def dstField (p : Params) (w : Nat) : Nat := bitsAt w 11 p.aw

/-- Field `dcap`, bits [10+AW+LW : 11+AW] (R71). -/
def dcapField (p : Params) (w : Nat) : Nat := bitsAt w (11 + p.aw) p.lw

/-- Field `src`, bits [10+2*AW+LW : 11+AW+LW] (R71). -/
def srcField (p : Params) (w : Nat) : Nat := bitsAt w (11 + p.aw + p.lw) p.aw

/-- Field `slen`, bits [10+2*AW+2*LW : 11+2*AW+LW] (R71). -/
def slenField (p : Params) (w : Nat) : Nat := bitsAt w (11 + 2 * p.aw + p.lw) p.lw

/-- The decoder, total on every number. It matches on `op` alone (R73, R74: mask 0x7); reserved
op-codes are rejected by name (R76), and so is a number wider than a command word. -/
def decode (p : Params) (w : Nat) : Except DecodeError Instr :=
  if 2 ^ p.cw ≤ w then .error (.notACommandWord w)
  else match opField w with
    | 0 => .ok (.isHexDigit (aField w))
    | 1 => .ok (.nibbleToHexChar (aField w))
    | 2 => .ok (.hexCharToNibble (aField w))
    | 3 => .ok (.encodeBuffer (dstField p w) (dcapField p w) (srcField p w) (slenField p w))
    | 4 => .ok (.decodeBuffer (dstField p w) (dcapField p w) (srcField p w) (slenField p w))
    | op => .error (.reservedOp op)

/-- The op-code of an instruction (R73). -/
def Instr.opcode : Instr → Nat
  | .isHexDigit _ => 0
  | .nibbleToHexChar _ => 1
  | .hexCharToNibble _ => 2
  | .encodeBuffer .. => 3
  | .decodeBuffer .. => 4

/-- The six fields laid out in one word, `op` lowest (R71; `95_test_vectors.md`, its formula `cmd`). -/
def packWord (p : Params) (op : Nat) (a : Byte) (dst dcap src slen : Nat) : Nat :=
  op + a.toNat * 2 ^ 3 + dst * 2 ^ 11 + dcap * 2 ^ (11 + p.aw) + src * 2 ^ (11 + p.aw + p.lw)
    + slen * 2 ^ (11 + 2 * p.aw + p.lw)

/-- The canonical command word of an instruction: every ignored field is 0 (R74). The port `v` of the
nibble encoder is encoded whole: its bits [7:4] are ignored by the operation, not by the field. -/
def encode (p : Params) (i : Instr) : Nat :=
  match i with
  | .isHexDigit c => packWord p i.opcode c 0 0 0 0
  | .nibbleToHexChar v => packWord p i.opcode v 0 0 0 0
  | .hexCharToNibble h => packWord p i.opcode h 0 0 0 0
  | .encodeBuffer dst hlen src blen => packWord p i.opcode 0 dst hlen src blen
  | .decodeBuffer dst blen src hlen => packWord p i.opcode 0 dst blen src hlen

/-- The instruction read from the low `nbits` bits of `w`, as spec/opcode_table.json numbers them
(`AW = LW = 16`, 75 bits); every bit of the word above `nbits` is 0. -/
def decodeTableWord (nbits w : Nat) : Option Instr :=
  match decode Params.reference (w % 2 ^ nbits % 2 ^ Params.reference.cw) with
  | .ok i => some i
  | .error _ => none

end Sys2Proof
end

