-- ==== Sys2Proof/Machine/Flags.lean ====
section
/-! DEFINITION. The block has no flag and no condition code (`10_state.md` R23), so there is no flag
computation. What stands here are the only tests the block makes, each used at once and kept nowhere:
the two 8-bit comparisons of the classifier (R101) and the two bounds of the buffer loops (R132, R152). -/

namespace Sys2Proof.Machine

/-- `sub8(a, b)`: 8-bit wraparound subtraction (`00_scope.md` section 5, R102). -/
def sub8 (a b : Byte) : Byte := a - b

/-- `n09 <= 9`, unsigned, with `n09 = sub8(c, 0x30)`: `c` is a decimal digit (R101, R103). -/
def decimalTest (c : Byte) : Bool := (sub8 c 0x30#8).ule 9#8

/-- `nAF <= 5`, unsigned, with `nAF = sub8(c | 0x20, 0x61)`: `c` is a letter a to f of either case
(R101, R103; the bound 5 is that of `90_conflicts.md` C1). -/
def letterTest (c : Byte) : Bool := (sub8 (c ||| 0x20#8) 0x61#8).ule 5#8

/-- The loop condition of both buffer operations, `(i < blen) and (j + 1 < hlen)` (R132, R152), on
unbounded numbers (R9, D10). -/
def loopTest (i blen j hlen : Nat) : Bool := decide (i < blen) && decide (j + 1 < hlen)

end Sys2Proof.Machine
end

