-- ==== Sys2Proof/Machine/State.lean ====
section
/-! DEFINITION. The state of the machine, the reasons a step can stop, and the state after reset.

The block has no register, program counter, flag or control register (`10_state.md` R20 to R25). The
machine is: the memory (R40) and what it admits (R55), the `N_INST` blocks that share it (R181), each
with its transient state (R30) and its response port (R78), and what the outside world is about to do
(its commands, its own accesses, its reset input). Everything is plain data. -/

namespace Sys2Proof.Machine

/-- The data memory (R40): address and byte pairs, sorted by address, none of them equal to what an
unlisted address reads as. -/
structure Memory where
  cells : List Host.Cell
  deriving DecidableEq, Repr

/-- The two memory primitives of R43. -/
inductive AccessKind where
  /-- `MemRead(addr, 1)`. -/
  | read
  /-- `MemWrite(addr, 1, v)`. -/
  | write
  deriving DecidableEq, Repr

/-- What lies behind a region of addresses. -/
inductive RegionKind where
  /-- Memory without side effects, the only place a buffer may lie (R53). -/
  | plain
  /-- A device register: a buffer any element of which lies there is refused (R53, R41, U10; log 14). -/
  | device
  deriving DecidableEq, Repr

/-- One region of the memory the machine was launched with (R55): the addresses
`base .. base + size - 1`, and whether the block may read and write them. -/
structure Region where
  base : Nat
  size : Nat
  kind : RegionKind
  readable : Bool
  writable : Bool
  deriving DecidableEq, Repr

/-- Which of the two buffer operations a command is. -/
inductive Direction where
  /-- `encode_buffer` (R130). -/
  | encode
  /-- `decode_buffer` (R150). -/
  | decode
  deriving DecidableEq, Repr

/-- A buffer command with its operands, in the order of the command's fields (R71). -/
structure Job where
  dir : Direction
  dst : Nat
  dcap : Nat
  src : Nat
  slen : Nat
  deriving DecidableEq, Repr

/-- Which access of an iteration comes next (R57), with the values read and not yet written (R30). -/
inductive Phase where
  /-- Next: the test of the loop condition, then the first read of the iteration. -/
  | fetch
  /-- `encode_buffer` has read the byte `b`; next: write its high character. -/
  | highOut (b : Byte)
  /-- `encode_buffer` has written the high character of `b`; next: write the low one. -/
  | lowOut (b : Byte)
  /-- `decode_buffer` has read and decoded the first character; next: read the second. -/
  | lowIn (high : Nibble)
  /-- `decode_buffer` has decoded both characters; next: write the byte. -/
  | byteOut (high low : Nibble)
  deriving DecidableEq, Repr

/-- The transient state of a buffer operation that runs access by access (R30): its operands, the index
`i` into the binary buffer, the index `j` into the hex buffer, and what the iteration holds. -/
structure Flight where
  job : Job
  i : Nat
  j : Nat
  phase : Phase
  deriving DecidableEq, Repr

/-- One instance of the hardware (R181): the command in flight, if any, and the response port. -/
structure Block where
  flight : Option Flight
  /-- The response of the last command, until the next command is accepted (R78, log 9). -/
  rsp : Option Nat
  deriving DecidableEq, Repr

/-- An idle block: no command in flight, no response pending (R190). -/
def Block.idle : Block := { flight := none, rsp := none }

/-- What the outside world does to the machine (R58, R79, R190). -/
inductive Event where
  /-- Command word `w` at the command port of block `k`, to be performed as one step (R60). -/
  | command (k w : Nat)
  /-- Command word `w` at the command port of block `k`, to be performed access by access (R57). -/
  | start (k w : Nat)
  /-- Block `k` performs its next access, or delivers its response. -/
  | tick (k : Nat)
  /-- The caller reads the memory element at `a` (R58, R194). -/
  | callerRead (a : Nat)
  /-- The caller writes `v` to the memory element at `a` (R58, R196). -/
  | callerWrite (a : Nat) (v : Byte)
  /-- The reset input of block `k` (R190). -/
  | reset (k : Nat)
  deriving DecidableEq, Repr

structure State where
  /-- The widths `AW` and `LW` of this machine (R8). No step changes them. -/
  params : Params
  /-- The data memory (R40). -/
  mem : Memory
  /-- What the memory admits (R55). No step changes it. -/
  regions : List Region
  /-- The `N_INST` instances that share the memory (R8, R181). -/
  blocks : List Block
  /-- The model's own field: the block that moves in this step (log 6). -/
  active : Nat
  /-- What the outside world does next, in order (log 5). -/
  inbox : List Event
  deriving DecidableEq, Repr

/-- The machine stops because a block has no step (R12 outcome c); that it stops for the other instances too is a
DESIGN CHOICE (log 15). -/
inductive Fault where
  /-- Raised by every access of a buffer operation to an address the memory does not allow for that kind
  of access: the operation is stuck (R55, U7). Safe: the spec gives no step there, and a claim about a
  next state says nothing of it. -/
  | notAdmitted (kind : AccessKind) (addr : Nat)
  deriving DecidableEq, Repr

/-- The model gives the command, or the run, no meaning (R12 outcome b). -/
inductive Refusal where
  /-- Raised by an arm of `exec` whose instruction has no meaning yet; no arm does. Safe. -/
  | notModelled (mnemonic : String)
  /-- Raised on accepting a command with `op` 5, 6 or 7 (R76, U5). Safe: the spec refuses it. -/
  | reservedOp (op : Nat)
  /-- Raised on accepting a number that does not fit `CW` bits (R71). Safe: it is no command word. -/
  | notACommandWord (w : Nat)
  /-- Raised by a buffer operation whose read or write footprint would pass the top of the address
  space (R42, U8). Safe: the spec refuses it. -/
  | footprintWraps (kind : AccessKind)
  /-- Raised by a buffer operation whose read and write footprints share an address (R56, U4). Safe: the
  spec refuses it. -/
  | footprintsOverlap
  /-- Raised by an access that races with the command another agent has in flight (R58, U3). Safe: the
  spec refuses it. -/
  | race (kind : AccessKind) (addr : Nat)
  /-- Raised by a buffer operation with an element of its source buffer (`read`) or destination buffer (`write`)
  on a device register (R53, R41, U10). Safe: the spec refuses it. -/
  | bufferOnDevice (kind : AccessKind)
  /-- Raised by the caller's own access to a device register, and by a command in flight that makes one, which
  none that was accepted does (R53, U10). Safe: the spec refuses it. -/
  | deviceAccess (addr : Nat)
  /-- Raised by the reset input of a block with a command in flight (R191, U6). Safe here: the spec has no
  such move, and the run is refused where hardware would go on with part of the writes done (log 8). -/
  | resetInFlight (k : Nat)
  /-- Raised by an event that names a block the machine does not have (R181). Safe: no such input exists. -/
  | noSuchBlock (k : Nat)
  /-- Raised by a caller's access beyond the address space (R40). Safe: no such address exists. -/
  | noSuchAddress (addr : Nat)
  deriving DecidableEq, Repr

/-- What an operation of the machine answers: a value, or the reason it stops. -/
abbrev Res (α : Type) := Host.Outcome α Fault Refusal

/-- The machine right after reset (R33, R190): its one block idle, the memory untouched. The spec's
reference values are taken for the OPEN parameters (log 1); memory and admission at launch are the
caller's (logs 3 and 4). -/
def State.reset : State where
  params := Params.reference
  mem := { cells := [] }
  regions := [{ base := 0, size := 2 ^ 16, kind := .plain, readable := true, writable := true }]
  blocks := [Block.idle]
  active := 0
  inbox := []

end Sys2Proof.Machine
end

