-- ==== Sys2Proof/Machine/Operands.lean ====
section
/-! DEFINITION. The operand forms: the halves of a byte (R10, R45), a run of addresses (R41), and what a
buffer command's operands say, its two lengths (R72), its iteration count (R133, R153) and its two
footprints (`20_memory.md` R48, R49). -/

namespace Sys2Proof.Machine

/-- `b >> 4`, the high nibble of a byte as the nibble encoder's 8-bit input (R10, R131). -/
def highPart (b : Byte) : Byte := b >>> 4

/-- `b & 0xF`, the low nibble of a byte as the nibble encoder's 8-bit input (R10, R131). -/
def lowPart (b : Byte) : Byte := b &&& 0x0F#8

/-- `(high << 4) | low`, the packed byte (R45, R151). -/
def packNibbles (high low : Nibble) : Byte := (high.setWidth 8 <<< 4) ||| low.setWidth 8

/-- The addresses `base .. base + count - 1` (R41). -/
structure Span where
  base : Nat
  count : Nat
  deriving DecidableEq, Repr

/-- `a` is one of the addresses of the span. -/
abbrev Span.Has (sp : Span) (a : Nat) : Prop := sp.base ≤ a ∧ a < sp.base + sp.count

/-- The span does not pass the top of an address space of `2^aw` elements; an empty one never does (R42). -/
abbrev Span.Fits (sp : Span) (aw : Nat) : Prop := sp.count = 0 ∨ sp.base + sp.count ≤ 2 ^ aw

/-- The two spans share an address (R56); an empty one shares none. -/
abbrev Span.Meets (x y : Span) : Prop :=
  0 < x.count ∧ 0 < y.count ∧ x.base < y.base + y.count ∧ y.base < x.base + x.count

/-- `blen`: bytes of the binary buffer, whichever side it is on (R72). -/
def Job.blen (job : Job) : Nat :=
  match job.dir with
  | .encode => job.slen
  | .decode => job.dcap

/-- `hlen`: characters of the hex buffer, whichever side it is on (R72). -/
def Job.hlen (job : Job) : Nat :=
  match job.dir with
  | .encode => job.dcap
  | .decode => job.slen

/-- `n = min(blen, floor(hlen / 2))`, how often the loop body runs (R133, R153). -/
def Job.iterations (job : Job) : Nat := min job.blen (job.hlen / 2)

/-- The elements the command reads: `n` bytes, or `2n` characters (R48, R49). -/
def Job.readSpan (job : Job) : Span :=
  match job.dir with
  | .encode => { base := job.src, count := job.iterations }
  | .decode => { base := job.src, count := 2 * job.iterations }

/-- The elements the command writes: `2n` characters, or `n` bytes (R48, R49). -/
def Job.writeSpan (job : Job) : Span :=
  match job.dir with
  | .encode => { base := job.dst, count := 2 * job.iterations }
  | .decode => { base := job.dst, count := job.iterations }

/-- The source buffer, all its elements (R41, R72). -/
def Job.srcBuffer (job : Job) : Span := { base := job.src, count := job.slen }

/-- The destination buffer, all its elements (R41, R72). -/
def Job.dstBuffer (job : Job) : Span := { base := job.dst, count := job.dcap }

/-- The response when the loop ends at `i` and `j`: characters written, or bytes written (R131, R151). -/
def Job.countAt (job : Job) (i j : Nat) : Nat :=
  match job.dir with
  | .encode => j
  | .decode => i

/-- The buffer command of an instruction, if it is one (R72). -/
def jobOf (i : Instr) : Option Job :=
  match i with
  | .isHexDigit _ => none
  | .nibbleToHexChar _ => none
  | .hexCharToNibble _ => none
  | .encodeBuffer dst hlen src blen => some { dir := .encode, dst, dcap := hlen, src, slen := blen }
  | .decodeBuffer dst blen src hlen => some { dir := .decode, dst, dcap := blen, src, slen := hlen }

end Sys2Proof.Machine
end

