-- ==== Sys2Proof/Machine/Ops.lean ====
section
/-! DEFINITION. The named operations over memory, blocks and responses.

There is no exception to take and no return from one: the block raises none, has no trap entry and no
trap return (`60_exceptions.md` R170, R175, R176). A command completes, is refused or is stuck (R12). -/

namespace Sys2Proof.Machine

/-- What an address that the memory does not list reads as (log 3). -/
def Memory.unlisted : Byte := 0x00#8

/-- The byte listed at an address, else the byte of an unlisted one. -/
def lookupCell (a : Nat) : List Host.Cell → Byte
  | [] => Memory.unlisted
  | (b, u) :: rest => if a = b then u else lookupCell a rest

/-- Replace what the sorted list says of one address, keeping the canonical form. -/
def insertCell (a : Nat) (v : Byte) : List Host.Cell → List Host.Cell
  | [] => if v = Memory.unlisted then [] else [(a, v)]
  | (b, u) :: rest =>
    if a < b then
      if v = Memory.unlisted then (b, u) :: rest else (a, v) :: (b, u) :: rest
    else if a = b then
      if v = Memory.unlisted then rest else (a, v) :: rest
    else (b, u) :: insertCell a v rest

/-- `MemRead(a, 1)` on the memory itself (R43). -/
def Memory.read (m : Memory) (a : Nat) : Byte := lookupCell a m.cells

/-- `MemWrite(a, 1, v)` on the memory itself (R43). -/
def Memory.write (m : Memory) (a : Nat) (v : Byte) : Memory := { cells := insertCell a v m.cells }

/-- The cells are sorted from `lo` up, below `hi`, and none holds the byte of an unlisted address. -/
def cellsWf (lo hi : Nat) : List Host.Cell → Bool
  | [] => true
  | (b, u) :: rest => decide (lo ≤ b) && decide (b < hi) && decide (u ≠ Memory.unlisted) && cellsWf (b + 1) hi rest

/-- The canonical form of the memory of an address space of `2^aw` elements (R40). -/
def Memory.wf (m : Memory) (aw : Nat) : Bool := cellsWf 0 (2 ^ aw) m.cells

/-- The elements of a span, lowest address first (R41). -/
def Memory.bytes (m : Memory) (base count : Nat) : List Byte :=
  (List.range count).map fun k => m.read (base + k)

/-- Go on with the answer of an operation, unless it stopped. -/
def andThen {α β : Type} (r : Res α) (f : α → Res β) : Res β :=
  match r with
  | .next x => f x
  | .fault e => .fault e
  | .refused e => .refused e

/-- The region lists the address. -/
abbrev Region.Has (r : Region) (a : Nat) : Prop := r.base ≤ a ∧ a < r.base + r.size

/-- The region admits this kind of access (R55). -/
def Region.admits (r : Region) (kind : AccessKind) : Bool :=
  match kind with
  | .read => r.readable
  | .write => r.writable

/-- The region an address of the space lies in; none beyond the space (R40). The first region that lists
the address counts. -/
def State.regionAt (s : State) (a : Nat) : Option Region :=
  if a < 2 ^ s.params.aw then s.regions.find? fun r => decide (r.Has a) else none

/-- The other agents that may have a command in flight: all blocks but `who`; for the caller
(`none`), all blocks (R58). -/
def State.othersThan (s : State) (who : Option Nat) : List Block :=
  match who with
  | some k => s.blocks.eraseIdx k
  | none => s.blocks

/-- A device register lies at the address (R53). -/
def State.deviceAt (s : State) (a : Nat) : Bool :=
  match s.regionAt a with
  | some r => decide (r.kind = .device)
  | none => false

/-- A device register lies at some element of the span (R53). Where no region is a device there is none to look
for. -/
def State.onDevice (s : State) (sp : Span) : Bool :=
  (s.regions.any fun r => decide (r.kind = .device)) && (List.range sp.count).any fun k => s.deviceAt (sp.base + k)

/-- An access races with the command in flight at a block: it touches the write footprint, or writes
into the read footprint (R58). -/
def Block.races (b : Block) (kind : AccessKind) (a : Nat) : Bool :=
  match b.flight with
  | none => false
  | some f => decide (f.job.writeSpan.Has a) || (decide (kind = .write) && decide (f.job.readSpan.Has a))

/-- An access by the agent `who` races with some other agent's command in flight (R58). -/
def State.raced (s : State) (who : Option Nat) (kind : AccessKind) (a : Nat) : Bool :=
  (s.othersThan who).any fun b => b.races kind a

/-- Whether the block that moves may make this access: no race (R58), the address admitted (R55), and no
device there (R53). The buffers of an accepted command hold none (`State.accept`). An access that is not
admitted leaves the block without a step (R55); that the fault then ends the step of the whole machine, the other
instances and the caller included, is a DESIGN CHOICE (log 15). -/
def State.access (s : State) (kind : AccessKind) (a : Nat) : Res Unit :=
  if s.raced (some s.active) kind a then .refused (.race kind a)
  else match s.regionAt a with
    | none => .fault (.notAdmitted kind a)
    | some r =>
      match r.kind with
      | .device => .refused (.deviceAccess a)
      | .plain => if r.admits kind then .next () else .fault (.notAdmitted kind a)

/-- `MemRead(a, 1)` by the block that moves (R43). -/
def State.load (s : State) (a : Nat) : Res Byte :=
  andThen (s.access .read a) fun _ => .next (s.mem.read a)

/-- `MemWrite(a, 1, v)` by the block that moves (R43). -/
def State.store (s : State) (a : Nat) (v : Byte) : Res State :=
  andThen (s.access .write a) fun _ => .next { s with mem := s.mem.write a v }

/-- The conditions R42 and R56 put on two footprints in a space of `2^aw` elements: neither wraps, and the two
do not meet. -/
def admitSpans (aw : Nat) (reads writes : Span) : Res Unit :=
  if ¬ reads.Fits aw then .refused (.footprintWraps .read)
  else if ¬ writes.Fits aw then .refused (.footprintWraps .write)
  else if reads.Meets writes then .refused .footprintsOverlap
  else .next ()

/-- Whether a buffer command is accepted, before any access: its footprints neither wrap nor meet (R42, R56), and
no element of either buffer, touched or not, lies on a device register (R53, R41; log 14). A command that touches
nothing uses neither base, so every value of it is accepted (R42). -/
def State.accept (s : State) (job : Job) : Res Unit :=
  andThen (admitSpans s.params.aw job.readSpan job.writeSpan) fun _ =>
    if job.iterations = 0 then .next ()
    else if s.onDevice job.srcBuffer then .refused (.bufferOnDevice .read)
    else if s.onDevice job.dstBuffer then .refused (.bufferOnDevice .write)
    else .next ()

/-- Change the block that moves. -/
def State.onActive (s : State) (f : Block → Block) : State :=
  { s with blocks := s.blocks.modify s.active f }

/-- `rsp <- v` (R78): the block that moves delivers its response, zero-extended to `LW` bits, and holds
nothing of the command any more (R27, R30). -/
def State.deliver (s : State) (v : Nat) : State :=
  s.onActive fun b => { b with flight := none, rsp := some v }

/-- The command in flight at the block that moves. -/
def State.flight? (s : State) : Option Flight := (s.blocks[s.active]?).bind Block.flight

/-- The response pending at block `k` (R78). -/
def State.response (s : State) (k : Nat) : Option Nat := (s.blocks[k]?).bind Block.rsp

/-- Block `k` has a command in flight (R79). -/
def State.busy (s : State) (k : Nat) : Bool := ((s.blocks[k]?).bind Block.flight).isSome

/-- Record how far the command in flight has come (R30). -/
def State.setFlight (s : State) (f : Flight) : State :=
  s.onActive fun b => { b with flight := some f }

/-- Accept a buffer command that is to run access by access: both indices 0, nothing latched (R30), the
response of the command before it gone (R31). -/
def State.launch (s : State) (job : Job) : State :=
  s.onActive fun _ => { flight := some { job, i := 0, j := 0, phase := .fetch }, rsp := none }

end Sys2Proof.Machine
end

