-- ==== Sys2Proof/Machine/Classifier.lean ====
section
/-! DEFINITION. Unit hex_digit_classifier, operation `is_hex_digit` (`41_digit_classifier.md`). -/

namespace Sys2Proof.Machine

/-- The unit's output `is_hex` for its input `c` (R70, R101). -/
def isHexDigit (c : Byte) : Bool := decimalTest c || letterTest c

/-- `is_hex_digit(c)`: the response is `zext_LW(is_hex)`; nothing else happens (R101, R105). -/
def execIsHexDigit (c : Byte) (s : State) : Res State :=
  .next (s.deliver (isHexDigit c).toNat)

end Sys2Proof.Machine
end

