-- ==== Sys2Proof/Machine/NibbleDecoder.lean ====
section
/-! DEFINITION. Unit hex_nibble_decoder, operation `hex_char_to_nibble` (`43_nibble_decoder.md`). -/

namespace Sys2Proof.Machine

/-- The unit's output `nib` for its input `h` (R70, R121): the formula on the 22 hex digits, where the
sum is at most 15; the free value `DEC_INVALID(h)` on the other characters (R123). The case split is the
spec's, not a check the hardware makes. -/
def hexCharToNibble (h : Byte) : Nibble :=
  if isHexDigit h then BitVec.ofNat 4 (h.toNat % 16 + 9 * (h.toNat / 64))
  else Config.decInvalid h

/-- `hex_char_to_nibble(h)`: the response is `zext_LW(nib)`; it completes for every `h`, and nothing else
happens (R121, R123, R126). -/
def execHexCharToNibble (h : Byte) (s : State) : Res State :=
  .next (s.deliver (hexCharToNibble h).toNat)

end Sys2Proof.Machine
end

