-- ==== Sys2Proof/Machine/BufferDecoder.lean ====
section
/-! DEFINITION. Unit hex_buffer_decoder, operation `decode_buffer` (`45_buffer_decoder.md`), as one step
(`20_memory.md` R60): the loop of R151, statement by statement. -/

namespace Sys2Proof.Machine

/-- The byte of a pair of source characters (R151); a character that is no hex digit contributes its own
free nibble (R156). -/
def pairByte (hi lo : Byte) : Byte := packNibbles (hexCharToNibble hi) (hexCharToNibble lo)

/-- The body of the loop at indices `i` and `j`: read the two characters, then write the byte (R151, R57). -/
def decodeBody (dst src i j : Nat) (s : State) : Res State :=
  andThen (s.load (src + j)) fun hi =>
  andThen (s.load (src + j + 1)) fun lo =>
  s.store (dst + i) (pairByte hi lo)

/-- The loop of R151 from indices `i` and `j`; the response is `i`. `fuel` is an upper bound of the
iterations left: with `fuel = blen - i` the loop ends before it runs out. -/
def decodeLoop (dst blen src hlen : Nat) : Nat → Nat → Nat → State → Res State
  | 0, i, _, s => .next (s.deliver i)
  | fuel + 1, i, j, s =>
    if loopTest i blen j hlen then
      andThen (decodeBody dst src i j s) fun s' => decodeLoop dst blen src hlen fuel (i + 1) (j + 2) s'
    else .next (s.deliver i)

/-- `decode_buffer(dst, blen, src, hlen)`: refused where a footprint wraps or the two meet (R42, R56)
or a buffer is on a device register (R53), else the loop from `i = 0`, `j = 0` (R151). -/
def execDecodeBuffer (dst blen src hlen : Nat) (s : State) : Res State :=
  andThen (s.accept { dir := .decode, dst, dcap := blen, src, slen := hlen }) fun _ =>
    decodeLoop dst blen src hlen blen 0 0 s

end Sys2Proof.Machine
end

