-- ==== Sys2Proof/Machine/NibbleEncoder.lean ====
section
/-! DEFINITION. Unit hex_nibble_encoder, operation `nibble_to_hex_char` (`42_nibble_encoder.md`), and the
constant table it alone reads (`10_state.md` R26). -/

namespace Sys2Proof.Machine

/-- `HEXTAB`: the 16 characters of "0123456789abcdef" (R26), outside the address space. -/
def hexTab : Vector Byte 16 :=
  #v[0x30#8, 0x31#8, 0x32#8, 0x33#8, 0x34#8, 0x35#8, 0x36#8, 0x37#8,
     0x38#8, 0x39#8, 0x61#8, 0x62#8, 0x63#8, 0x64#8, 0x65#8, 0x66#8]

/-- The unit's output `ch` for its 8-bit input `v`, of which only `v & 0xF` is used (R70, R111). -/
def nibbleToHexChar (v : Byte) : Byte :=
  hexTab[v.toNat % 16]'(Nat.mod_lt _ (by decide))

/-- `nibble_to_hex_char(v)`: the response is `zext_LW(ch)`; nothing else happens (R111, R114). -/
def execNibbleToHexChar (v : Byte) (s : State) : Res State :=
  .next (s.deliver (nibbleToHexChar v).toNat)

end Sys2Proof.Machine
end

