-- ==== Sys2Proof/Machine/BufferEncoder.lean ====
section
/-! DEFINITION. Unit hex_buffer_encoder, operation `encode_buffer` (`44_buffer_encoder.md`), as one step
(`20_memory.md` R60): the loop of R131, statement by statement. -/

namespace Sys2Proof.Machine

/-- The character of the high nibble of a source byte (R131). -/
def highChar (b : Byte) : Byte := nibbleToHexChar (highPart b)

/-- The character of the low nibble of a source byte (R131). -/
def lowChar (b : Byte) : Byte := nibbleToHexChar (lowPart b)

/-- The body of the loop at indices `i` and `j`: read the source byte once, write its high character,
then its low one (R131, R57). -/
def encodeBody (dst src i j : Nat) (s : State) : Res State :=
  andThen (s.load (src + i)) fun b =>
  andThen (s.store (dst + j) (highChar b)) fun s1 =>
  s1.store (dst + j + 1) (lowChar b)

/-- The loop of R131 from indices `i` and `j`; the response is `j`. `fuel` is an upper bound of the
iterations left: with `fuel = blen - i` the loop ends before it runs out. -/
def encodeLoop (dst hlen src blen : Nat) : Nat → Nat → Nat → State → Res State
  | 0, _, j, s => .next (s.deliver j)
  | fuel + 1, i, j, s =>
    if loopTest i blen j hlen then
      andThen (encodeBody dst src i j s) fun s' => encodeLoop dst hlen src blen fuel (i + 1) (j + 2) s'
    else .next (s.deliver j)

/-- `encode_buffer(dst, hlen, src, blen)`: refused where a footprint wraps or the two meet (R42, R56)
or a buffer is on a device register (R53), else the loop from `i = 0`, `j = 0` (R131). -/
def execEncodeBuffer (dst hlen src blen : Nat) (s : State) : Res State :=
  andThen (s.accept { dir := .encode, dst, dcap := hlen, src, slen := blen }) fun _ =>
    encodeLoop dst hlen src blen blen 0 0 s

end Sys2Proof.Machine
end

