-- ==== Sys2Proof/Machine/Dispatch.lean ====
section
/-! DEFINITION. One arm per instruction of spec/opcode_table.json, in the table's order. -/

namespace Sys2Proof.Machine

def exec (i : Instr) (s : State) : Host.Outcome State Fault Refusal :=
  match i with
  | .isHexDigit c => Sys2Proof.Machine.execIsHexDigit c s
  | .nibbleToHexChar v => Sys2Proof.Machine.execNibbleToHexChar v s
  | .hexCharToNibble h => Sys2Proof.Machine.execHexCharToNibble h s
  | .encodeBuffer dst hlen src blen => Sys2Proof.Machine.execEncodeBuffer dst hlen src blen s
  | .decodeBuffer dst blen src hlen => Sys2Proof.Machine.execDecodeBuffer dst blen src hlen s

end Sys2Proof.Machine
end

