-- ==== Sys2Proof/Machine/Events.lean ====
section
/-! DEFINITION. What a step does: accepting a command, performing one access of a command in flight
(`20_memory.md` R57), and the caller's own moves (R58, R190). `Step.lean` only calls `stepEvent`. -/

namespace Sys2Proof.Machine

/-- The next access of a command in flight, in the order of R57, or its response after the last one
(R59). The loop condition is tested before every iteration, the first included (R132, R152). -/
def advanceFlight (f : Flight) (s : State) : Res State :=
  match f.phase with
  | .fetch =>
    if loopTest f.i f.job.blen f.j f.job.hlen then
      match f.job.dir with
      | .encode =>
        andThen (s.load (f.job.src + f.i)) fun b => .next (s.setFlight { f with phase := .highOut b })
      | .decode =>
        andThen (s.load (f.job.src + f.j)) fun h =>
          .next (s.setFlight { f with phase := .lowIn (hexCharToNibble h) })
    else .next (s.deliver (f.job.countAt f.i f.j))
  | .highOut b =>
    andThen (s.store (f.job.dst + f.j) (highChar b)) fun s1 =>
      .next (s1.setFlight { f with phase := .lowOut b })
  | .lowOut b =>
    andThen (s.store (f.job.dst + f.j + 1) (lowChar b)) fun s1 =>
      .next (s1.setFlight { f with i := f.i + 1, j := f.j + 2, phase := .fetch })
  | .lowIn high =>
    andThen (s.load (f.job.src + f.j + 1)) fun h =>
      .next (s.setFlight { f with phase := .byteOut high (hexCharToNibble h) })
  | .byteOut high low =>
    andThen (s.store (f.job.dst + f.i) (packNibbles high low)) fun s1 =>
      .next (s1.setFlight { f with i := f.i + 1, j := f.j + 2, phase := .fetch })

/-- One move of the block that moves: the next access of its command, or nothing if it is idle (R183). -/
def advance (s : State) : Res State :=
  match s.flight? with
  | none => .next s
  | some f => advanceFlight f s

/-- `advance` so many times, stopping where it stops. -/
def advanceBy : Nat → State → Res State
  | 0, s => .next s
  | k + 1, s => andThen (advance s) (advanceBy k)

/-- Accept a command that is to run access by access (R30, R57). A primitive operation makes no access and
has no transient state (R30, R50), so it is performed at once. -/
def begin (i : Instr) (s : State) : Res State :=
  match jobOf i with
  | none => exec i s
  | some job => andThen (s.accept job) fun _ => .next (s.launch job)

/-- Decode a command word and go on with the instruction; a word that is none is refused (R76). -/
def withDecoded (w : Nat) (s : State) (run : Instr → State → Res State) : Res State :=
  match decode s.params w with
  | .ok i => run i s
  | .error (.reservedOp op) => .refused (.reservedOp op)
  | .error (.notACommandWord v) => .refused (.notACommandWord v)

/-- The event at the head of the inbox is taken, and block `k` moves. -/
def State.taken (s : State) (k : Nat) (rest : List Event) : State := { s with active := k, inbox := rest }

/-- Block `k` moves; the inbox stays as it is. -/
def State.turnOf (s : State) (k : Nat) : State := { s with active := k }

/-- A command word at the port of block `k`. An idle block accepts and runs it; a busy one does not accept
it (R79) and goes on with the command it has, while the word waits at the port. -/
def offerCommand (k w : Nat) (rest : List Event) (s : State) (run : Instr → State → Res State) : Res State :=
  if s.blocks.length ≤ k then .refused (.noSuchBlock k)
  else if s.busy k then advance (s.turnOf k)
  else withDecoded w (s.taken k rest) run

/-- Block `k` makes one move (R57). -/
def tickBlock (k : Nat) (rest : List Event) (s : State) : Res State :=
  if s.blocks.length ≤ k then .refused (.noSuchBlock k) else advance (s.taken k rest)

/-- Whether the caller may access an address: it exists (R40), the access races with no command in flight
(R58), and no device lies there (R53). The caller's own memory needs no admission (log 4). -/
def State.callerAccess (s : State) (kind : AccessKind) (a : Nat) : Res Unit :=
  if 2 ^ s.params.aw ≤ a then .refused (.noSuchAddress a)
  else if s.raced none kind a then .refused (.race kind a)
  else if s.deviceAt a then .refused (.deviceAccess a)
  else .next ()

/-- The caller reads an element; nothing changes (R53). -/
def callerReads (a : Nat) (rest : List Event) (s : State) : Res State :=
  andThen (s.callerAccess .read a) fun _ => .next { s with inbox := rest }

/-- The caller writes an element (R43). -/
def callerWrites (a : Nat) (v : Byte) (rest : List Event) (s : State) : Res State :=
  andThen (s.callerAccess .write a) fun _ => .next { s with mem := s.mem.write a v, inbox := rest }

/-- The reset input of block `k` (R190): the block is idle, no response pending, and memory is untouched
(R191). A reset while a command is in flight is no move of the model (R191, U6). -/
def resetBlock (k : Nat) (rest : List Event) (s : State) : Res State :=
  if s.blocks.length ≤ k then .refused (.noSuchBlock k)
  else if s.busy k then .refused (.resetInFlight k)
  else .next { s with blocks := s.blocks.set k Block.idle, inbox := rest }

/-- The outside world does nothing: the first block with a command in flight goes on; with none in flight
the machine is idle and holds what it held (R183). -/
def stepQuiet (s : State) : Res State :=
  match s.blocks.findIdx? fun b => b.flight.isSome with
  | none => .next s
  | some k => advance (s.turnOf k)

/-- One step: what the head of the inbox says. -/
def stepEvent (s : State) : Res State :=
  match s.inbox with
  | [] => stepQuiet s
  | .command k w :: rest => offerCommand k w rest s exec
  | .start k w :: rest => offerCommand k w rest s begin
  | .tick k :: rest => tickBlock k rest s
  | .callerRead a :: rest => callerReads a rest s
  | .callerWrite a v :: rest => callerWrites a v rest s
  | .reset k :: rest => resetBlock k rest s

/-- The state with a table word presented at the command port of block 0, which is idle, as the next
event: the low `nbits` bits of `w`, cut to the width of a command word. -/
def State.presentWord (s : State) (nbits w : Nat) : State :=
  { s with
    blocks := s.blocks.modify 0 fun b => { b with flight := none }
    inbox := .command 0 (w % 2 ^ nbits % 2 ^ s.params.cw) :: s.inbox }

end Sys2Proof.Machine
end

