-- ==== Sys2Proof/Machine/Step.lean ====
section
/-! DEFINITION. One step of the machine, and the placing of a command word where the next step takes it. -/

namespace Sys2Proof.Machine

/-- One step of the machine (R60, R79). -/
def step : State → Host.Outcome State Fault Refusal := stepEvent

/-- `s` with the instruction of a table word as the next command: presented at the command port of block 0
(log 5). -/
def State.withFetchWord (s : State) (nbits w : Nat) : State := s.presentWord nbits w

end Sys2Proof.Machine
end

