-- ==== Sys2Proof/Safety.lean ====
section
/-! DEFINITION. The terms claims use: the spec's tables written as ranges and not as the algorithms, the
conditions under which a buffer command completes, the state after a completed command, and the
invariant of the machine. -/

namespace Sys2Proof.Safety

open Sys2Proof.Machine

/-- The 22 codes of the hex digits (R84, R100), as three ranges. -/
abbrev IsHexCode (c : Byte) : Prop :=
  (0x30 ≤ c.toNat ∧ c.toNat ≤ 0x39) ∨ (0x41 ≤ c.toNat ∧ c.toNat ≤ 0x46) ∨ (0x61 ≤ c.toNat ∧ c.toNat ≤ 0x66)

/-- The nibble each hex digit stands for (the table of R84); 0 for what is no hex digit, where the spec
gives none, so a claim uses it only beside `IsHexCode`. -/
def digitValue (c : Byte) : Nat :=
  if 0x30 ≤ c.toNat ∧ c.toNat ≤ 0x39 then c.toNat - 0x30
  else if 0x41 ≤ c.toNat ∧ c.toNat ≤ 0x46 then c.toNat - 0x41 + 10
  else if 0x61 ≤ c.toNat ∧ c.toNat ≤ 0x66 then c.toNat - 0x61 + 10
  else 0

/-- The lowercase hex digit of a value 0 to 15, in the closed form of R112. -/
def lowerDigit (k : Nat) : Nat := if k ≤ 9 then 0x30 + k else 0x57 + k

/-- A letter made lowercase, any other character as it is (R86, R161). -/
def lowered (c : Byte) : Byte :=
  if 0x41 ≤ c.toNat ∧ c.toNat ≤ 0x5A then c ||| 0x20#8 else c

/-- The helper of property P2 (D25): `c - 0x20` for `c` in 0x61..0x7A, else `c`. -/
def toUpper (c : Byte) : Byte :=
  if 0x61 ≤ c.toNat ∧ c.toNat ≤ 0x7A then c - 0x20#8 else c

/-- The block that moves may make this access: no other agent's command in flight races with it (R58),
and plain memory that admits it lies there (R53, R55). -/
def mayAccess (s : State) (kind : AccessKind) (a : Nat) : Bool :=
  !s.raced (some s.active) kind a
    && (s.regionAt a).any fun r => decide (r.kind = .plain) && r.admits kind

/-- The premises of a buffer command before any access (R42, R56). -/
abbrev Placed (aw : Nat) (job : Job) : Prop :=
  job.readSpan.Fits aw ∧ job.writeSpan.Fits aw ∧ ¬ job.readSpan.Meets job.writeSpan

/-- No element of either buffer lies on a device register, unless the command touches nothing (R53, R41, R42;
log 14). -/
abbrev Clear (s : State) (job : Job) : Prop :=
  0 < job.iterations →
    (∀ k < job.srcBuffer.count, s.deviceAt (job.srcBuffer.base + k) = false)
      ∧ (∀ k < job.dstBuffer.count, s.deviceAt (job.dstBuffer.base + k) = false)

/-- Everything a buffer command needs to be accepted (R42, R53, R56). -/
abbrev Acceptable (s : State) (job : Job) : Prop := Placed s.params.aw job ∧ Clear s job

/-- Everything a buffer command needs to complete (R42, R53, R55, R56, R58). -/
abbrev Ready (s : State) (job : Job) : Prop :=
  Acceptable s job
    ∧ (∀ k < job.readSpan.count, mayAccess s .read (job.readSpan.base + k) = true)
    ∧ (∀ k < job.writeSpan.count, mayAccess s .write (job.writeSpan.base + k) = true)

/-- `s` after a command that delivered `v` and left `m` in memory: the block that moves holds the response
and nothing of the command (R27, R78); everything else is as it was. -/
def completed (s : State) (m : Memory) (v : Nat) : State :=
  { s with
    mem := m
    blocks := s.blocks.modify s.active fun b => { b with flight := none, rsp := some v } }

/-- The two memories agree on a span. -/
abbrev AgreeOn (sp : Span) (m m' : Memory) : Prop := ∀ a, sp.Has a → m'.read a = m.read a

/-- The two memories agree outside a span. -/
abbrev AgreeOutside (sp : Span) (m m' : Memory) : Prop := ∀ a, ¬ sp.Has a → m'.read a = m.read a

/-- The phase belongs to the operation, and a value is held only inside an iteration (R30, R57). -/
abbrev PhaseFits (f : Flight) : Prop :=
  match f.phase with
  | .fetch => True
  | .highOut _ => f.job.dir = .encode ∧ f.i < f.job.iterations
  | .lowOut _ => f.job.dir = .encode ∧ f.i < f.job.iterations
  | .lowIn _ => f.job.dir = .decode ∧ f.i < f.job.iterations
  | .byteOut _ _ => f.job.dir = .decode ∧ f.i < f.job.iterations

/-- What holds of a command in flight: its operands fit their fields (R71), it was accepted (R42, R56), and
its indices are those of an iteration (R133, R153). -/
structure FlightOk (p : Params) (f : Flight) : Prop where
  fields : p.FieldsFit f.job.dst f.job.dcap f.job.src f.job.slen
  placed : Placed p.aw f.job
  pair : f.j = 2 * f.i
  bound : f.i ≤ f.job.iterations
  phase : PhaseFits f

/-- What holds of a block: a response fits `LW` bits (R78), and none is pending while a command is in
flight (R59, R79). -/
structure BlockOk (p : Params) (b : Block) : Prop where
  flight : ∀ f, b.flight = some f → FlightOk p f ∧ b.rsp = none
  rsp : ∀ v, b.rsp = some v → v < 2 ^ p.lw

/-- The invariant of the machine: the parameters are within their bounds (R8), the memory is in canonical
form and within the address space (R40), there is a block that moves (R8: `N_INST >= 1`), every block
is as the rules leave it, and no command in flight has a buffer on a device register (R53). The canonical form is
the model's choice (log 3), and the last clause its reading of R53 with R41 (log 14). -/
structure Inv (s : State) : Prop where
  params : s.params.Valid
  mem : s.mem.wf s.params.aw = true
  active : s.active < s.blocks.length
  blocks : ∀ b ∈ s.blocks, BlockOk s.params b
  clear : ∀ b ∈ s.blocks, ∀ f, b.flight = some f → Clear s f.job

end Sys2Proof.Safety
end

