-- ==== Sys2Proof/Certificates/Slice0/Obligations.lean ====
section
/-! DEFINITION. The statements for the provers, each from a numbered rule of spec/ or derived from several.

`completed s m v` is `s` with the response `v` delivered by the block that moves, the memory `m`, and
nothing else changed: a conclusion `exec i s = .next (completed s m v)` is at once the completion, the
result and the frame of `i`. -/

open Sys2Proof Sys2Proof.Machine Sys2Proof.Safety

/-! ### The command word -/

/-- R71 to R75: for every well-formed instruction, every operand at every value its field holds, decoding
its encoding gives it back. -/
def Obligations.DecodeOfEncode : Prop :=
  ∀ (p : Params) (i : Instr), i.WellFormed p → decode p (encode p i) = .ok i

/-- R72, R73, R75 (and the field positions of R71): a word made of six field values decodes by `op` alone to
the operation with its used fields as they stand, whatever the ignored fields hold. -/
def Obligations.FieldsSelectTheOperation : Prop :=
  ∀ (p : Params) (op : Nat) (a : Byte) (dst dcap src slen : Nat), op < 8 → p.FieldsFit dst dcap src slen →
    decode p (op + a.toNat * 2 ^ 3 + dst * 2 ^ 11 + dcap * 2 ^ (11 + p.aw) + src * 2 ^ (11 + p.aw + p.lw)
        + slen * 2 ^ (11 + 2 * p.aw + p.lw))
      = if op = 0 then .ok (.isHexDigit a)
        else if op = 1 then .ok (.nibbleToHexChar a)
        else if op = 2 then .ok (.hexCharToNibble a)
        else if op = 3 then .ok (.encodeBuffer dst dcap src slen)
        else if op = 4 then .ok (.decodeBuffer dst dcap src slen)
        else .error (.reservedOp op)

/-- R71, R77: what decodes is well-formed, and its canonical word is a command word of the same `op`. -/
def Obligations.DecodedIsWellFormed : Prop :=
  ∀ (p : Params) (w : Nat) (i : Instr), decode p w = .ok i →
    i.WellFormed p ∧ encode p i < 2 ^ p.cw ∧ encode p i % 8 = w % 8

/-- R76: a word with `op` 5, 6 or 7 decodes to no instruction and is refused on acceptance, in both step
granularities; every word with another `op` is an instruction. -/
def Obligations.ReservedOpIsRefused : Prop :=
  ∀ (s : State) (k w : Nat) (rest : List Event), w < 2 ^ s.params.cw →
    k < s.blocks.length → s.busy k = false →
    (w % 8 ≤ 4 → ∃ i, decode s.params w = .ok i) ∧
    (5 ≤ w % 8 →
      step { s with inbox := .command k w :: rest } = .refused (.reservedOp (w % 8)) ∧
      step { s with inbox := .start k w :: rest } = .refused (.reservedOp (w % 8)))

/-- Sanity: one command word of `95_test_vectors.md` per operation (programs 1, 2 and 4), and the word with
every ignored field all ones. -/
def Obligations.TestVectorWordsDecode : Prop :=
  decode Params.reference 0x0000000000000000338 = .ok (.isHexDigit 0x67#8) ∧
  decode Params.reference 0x7FFFFFFFFFFFFFFFA08 = .ok (.isHexDigit 0x41#8) ∧
  decode Params.reference 0x0000000000000000051 = .ok (.nibbleToHexChar 0x0A#8) ∧
  decode Params.reference 0x000000000000000030A = .ok (.hexCharToNibble 0x61#8) ∧
  decode Params.reference 0x0002008000040100003 = .ok (.encodeBuffer 0x0200 8 0x0100 4) ∧
  decode Params.reference 0x0004010000020180004 = .ok (.decodeBuffer 0x0300 4 0x0200 8)

/-! ### The three primitive units -/

/-- R100, R104: `is_hex_digit(c)` completes for every character, and answers 1 exactly on the 22 codes. -/
def Obligations.ClassifierAnswersTheRanges : Prop :=
  ∀ (c : Byte) (s : State),
    exec (.isHexDigit c) s = .next (completed s s.mem (if IsHexCode c then 1 else 0))

/-- R103: which characters pass each of the two comparisons, and that none passes both. -/
def Obligations.ClassifierComparisons : Prop :=
  ∀ c : Byte,
    ((c - 0x30#8).toNat ≤ 9 ↔ 0x30 ≤ c.toNat ∧ c.toNat ≤ 0x39) ∧
    (((c ||| 0x20#8) - 0x61#8).toNat ≤ 5 ↔
      (0x41 ≤ c.toNat ∧ c.toNat ≤ 0x46) ∨ (0x61 ≤ c.toNat ∧ c.toNat ≤ 0x66)) ∧
    (((c ||| 0x20#8) - 0x61#8).toNat ≤ 5 ↔ 0x61 ≤ (c ||| 0x20#8).toNat ∧ (c ||| 0x20#8).toNat ≤ 0x66) ∧
    (decimalTest c = true ↔ (c - 0x30#8).toNat ≤ 9) ∧
    (letterTest c = true ↔ ((c ||| 0x20#8) - 0x61#8).toNat ≤ 5) ∧
    ¬ (decimalTest c = true ∧ letterTest c = true)

/-- R70: a primitive operation issued as a command completes with exactly the value of its unit's own port. -/
def Obligations.CommandGivesThePortValue : Prop :=
  ∀ (x : Byte) (s : State),
    exec (.isHexDigit x) s = .next (completed s s.mem (isHexDigit x).toNat) ∧
    exec (.nibbleToHexChar x) s = .next (completed s s.mem (nibbleToHexChar x).toNat) ∧
    exec (.hexCharToNibble x) s = .next (completed s s.mem (hexCharToNibble x).toNat)

/-- R112: `nibble_to_hex_char(v)` completes for every `v` with the character of `v[3:0]` in closed form. -/
def Obligations.NibbleEncoderClosedForm : Prop :=
  ∀ (v : Byte) (s : State),
    exec (.nibbleToHexChar v) s = .next (completed s s.mem (lowerDigit (v.toNat % 16)))

/-- R113: the bits `v[7:4]` have no effect of any kind. -/
def Obligations.NibbleEncoderIgnoresHighBits : Prop :=
  ∀ (v : Byte) (s : State),
    exec (.nibbleToHexChar v) s = exec (.nibbleToHexChar (v &&& 0x0F#8)) s ∧
    ∃ t, exec (.nibbleToHexChar v) s = .next t

/-- R120: on the 22 hex digits `hex_char_to_nibble` completes with the digit's value. -/
def Obligations.NibbleDecoderOnHexDigits : Prop :=
  ∀ (h : Byte) (s : State), IsHexCode h →
    exec (.hexCharToNibble h) s = .next (completed s s.mem (digitValue h))

/-- R123: on every other character it completes too, with a 4-bit value that is a function of the character
alone (the free value `DEC_INVALID` of log 2: the statement holds whatever it is). -/
def Obligations.NibbleDecoderOnOthers : Prop :=
  ∀ (h : Byte) (s : State), ¬ IsHexCode h →
    exec (.hexCharToNibble h) s = .next (completed s s.mem (Config.decInvalid h).toNat)

/-- R127: the decoder gives both cases of a letter the same response. -/
def Obligations.NibbleDecoderIgnoresCase : Prop :=
  ∀ (h : Byte) (s : State), 0x41 ≤ h.toNat → h.toNat ≤ 0x46 →
    exec (.hexCharToNibble h) s = exec (.hexCharToNibble (h ||| 0x20#8)) s

/-- R116: decoding an encoded nibble gives it back, also through `to_upper`; what is encoded is a hex digit;
and encoding a decoded hex digit gives it in lower case. -/
def Obligations.NibbleRoundTrip : Prop :=
  (∀ k : Byte, k.toNat < 16 →
    (hexCharToNibble (nibbleToHexChar k)).toNat = k.toNat ∧
    (hexCharToNibble (toUpper (nibbleToHexChar k))).toNat = k.toNat ∧
    isHexDigit (nibbleToHexChar k) = true) ∧
  ∀ h : Byte, IsHexCode h →
    nibbleToHexChar ((hexCharToNibble h).setWidth 8) = if h.toNat ≤ 0x39 then h else h ||| 0x20#8

/-! ### The buffer encoder -/

/-- R133, R134: where the command is ready, `encode_buffer` completes with `2n`; byte `k` of the source stands
as two lowercase digits, high nibble first, at `dst + 2k` and `dst + 2k + 1`; every other element of memory
and everything else is unchanged. -/
def Obligations.EncodeBufferCompletes : Prop :=
  ∀ (s : State) (dst hlen src blen : Nat), s.mem.wf s.params.aw = true →
    Ready s { dir := .encode, dst, dcap := hlen, src, slen := blen } →
    ∃ m : Memory,
      exec (.encodeBuffer dst hlen src blen) s = .next (completed s m (2 * min blen (hlen / 2))) ∧
      (∀ k < min blen (hlen / 2),
        (m.read (dst + 2 * k)).toNat = lowerDigit ((s.mem.read (src + k)).toNat / 16) ∧
        (m.read (dst + 2 * k + 1)).toNat = lowerDigit ((s.mem.read (src + k)).toNat % 16)) ∧
      (∀ a, ¬ (dst ≤ a ∧ a < dst + 2 * min blen (hlen / 2)) → m.read a = s.mem.read a)

/-- R135: whenever `encode_buffer` completes, the count is even, at most `hlen`, at most `2 * blen`, and all of
`2 * blen` where the capacity suffices. -/
def Obligations.EncodeCountBounds : Prop :=
  ∀ (s t : State) (dst hlen src blen : Nat), s.active < s.blocks.length →
    exec (.encodeBuffer dst hlen src blen) s = .next t →
    ∃ c, t.response s.active = some c ∧ c % 2 = 0 ∧ c ≤ hlen ∧ c ≤ 2 * blen ∧
      (2 * blen ≤ hlen → c = 2 * blen)

/-- R136: a capacity of 0 or 1 gives response 0 in every state, whatever the other operands and whatever the
memory admits: no access is made. -/
def Obligations.EncodeWithoutRoom : Prop :=
  ∀ (s : State) (dst hlen src blen : Nat), hlen ≤ 1 →
    exec (.encodeBuffer dst hlen src blen) s = .next (completed s s.mem 0)

/-- R139: an empty source gives response 0 in every state, for every capacity: no access is made. -/
def Obligations.EncodeEmptySource : Prop :=
  ∀ (s : State) (dst hlen src : Nat),
    exec (.encodeBuffer dst hlen src 0) s = .next (completed s s.mem 0)

/-- R138: with too small a capacity `encode_buffer` does exactly what it does with the first
`floor(hlen / 2)` bytes alone, whatever that is, if no element of its buffers lies on a device register, which
R53 puts outside the spec; and a completed one has written `hlen - hlen % 2` characters. -/
def Obligations.EncodeTruncates : Prop :=
  ∀ (s : State) (dst hlen src blen : Nat), hlen < 2 * blen →
    (Clear s { dir := .encode, dst, dcap := hlen, src, slen := blen } →
      exec (.encodeBuffer dst hlen src blen) s = exec (.encodeBuffer dst hlen src (hlen / 2)) s) ∧
    ∀ t, s.active < s.blocks.length → exec (.encodeBuffer dst hlen src blen) s = .next t →
      t.response s.active = some (hlen - hlen % 2) ∧
      ∀ a, ¬ (dst ≤ a ∧ a < dst + (hlen - hlen % 2)) → t.mem.read a = s.mem.read a

/-- R140: the last slot of an odd capacity counts for nothing: the outcome is that of the capacity below it, in
every state in which no element of the buffers lies on a device register (R53), so the slot is neither needed
nor written. -/
def Obligations.EncodeOddCapacity : Prop :=
  ∀ (s : State) (dst m src blen : Nat),
    Clear s { dir := .encode, dst, dcap := 2 * m + 1, src, slen := blen } →
    exec (.encodeBuffer dst (2 * m + 1) src blen) s = exec (.encodeBuffer dst (2 * m) src blen) s

/-! ### The buffer decoder -/

/-- R153, R154: where the command is ready, `decode_buffer` completes with `n`; a pair of hex digits at
`src + 2k` stands as the byte `16 * high + low` at `dst + k`; every other element of memory outside the
destination, and everything else, is unchanged. -/
def Obligations.DecodeBufferCompletes : Prop :=
  ∀ (s : State) (dst blen src hlen : Nat), s.mem.wf s.params.aw = true →
    Ready s { dir := .decode, dst, dcap := blen, src, slen := hlen } →
    ∃ m : Memory,
      exec (.decodeBuffer dst blen src hlen) s = .next (completed s m (min blen (hlen / 2))) ∧
      (∀ k < min blen (hlen / 2),
        IsHexCode (s.mem.read (src + 2 * k)) → IsHexCode (s.mem.read (src + 2 * k + 1)) →
        (m.read (dst + k)).toNat
          = 16 * digitValue (s.mem.read (src + 2 * k)) + digitValue (s.mem.read (src + 2 * k + 1))) ∧
      (∀ a, ¬ (dst ≤ a ∧ a < dst + min blen (hlen / 2)) → m.read a = s.mem.read a)

/-- R156: an invalid character contributes its own free nibble to its half of the byte, and the other half, the
count and the footprint are as for valid ones. -/
def Obligations.DecodeWithInvalidCharacters : Prop :=
  ∀ (s : State) (dst blen src hlen : Nat), s.mem.wf s.params.aw = true →
    Ready s { dir := .decode, dst, dcap := blen, src, slen := hlen } →
    ∃ m : Memory,
      exec (.decodeBuffer dst blen src hlen) s = .next (completed s m (min blen (hlen / 2))) ∧
      (∀ k < min blen (hlen / 2),
        (m.read (dst + k)).toNat / 16
          = (if IsHexCode (s.mem.read (src + 2 * k)) then digitValue (s.mem.read (src + 2 * k))
             else (Config.decInvalid (s.mem.read (src + 2 * k))).toNat) ∧
        (m.read (dst + k)).toNat % 16
          = (if IsHexCode (s.mem.read (src + 2 * k + 1)) then digitValue (s.mem.read (src + 2 * k + 1))
             else (Config.decInvalid (s.mem.read (src + 2 * k + 1))).toNat)) ∧
      (∀ a, ¬ (dst ≤ a ∧ a < dst + min blen (hlen / 2)) → m.read a = s.mem.read a)

/-- R159 (and the bounds of R153): whenever `decode_buffer` completes, the count is at most `blen` and at most
`hlen / 2`, and all of `hlen / 2` where the capacity suffices; an empty source gives 0 in every state. -/
def Obligations.DecodeCountBounds : Prop :=
  (∀ (s t : State) (dst blen src hlen : Nat), s.active < s.blocks.length →
    exec (.decodeBuffer dst blen src hlen) s = .next t →
    ∃ c, t.response s.active = some c ∧ c ≤ blen ∧ c ≤ hlen / 2 ∧ (hlen / 2 ≤ blen → c = hlen / 2)) ∧
  ∀ (s : State) (dst blen src : Nat),
    exec (.decodeBuffer dst blen src 0) s = .next (completed s s.mem 0)

/-- R155: the unpaired last character of an odd length counts for nothing: the outcome is that of the length
below it, in every state in which no element of the buffers lies on a device register, which R53 puts outside
the spec, so it is not even read; a length of 1 gives response 0 and no access in every state. -/
def Obligations.DecodeOddLength : Prop :=
  (∀ (s : State) (dst blen src m : Nat),
    Clear s { dir := .decode, dst, dcap := blen, src, slen := 2 * m + 1 } →
    exec (.decodeBuffer dst blen src (2 * m + 1)) s = exec (.decodeBuffer dst blen src (2 * m)) s) ∧
  ∀ (s : State) (dst blen src : Nat),
    exec (.decodeBuffer dst blen src 1) s = .next (completed s s.mem 0)

/-- R158: with too small a capacity `decode_buffer` does exactly what it does with the first `2 * blen`
characters alone, if no element of its buffers lies on a device register, which R53 puts outside the spec; a
completed one has delivered `blen` and changed nothing outside its `blen` bytes; a capacity of 0 gives
response 0 and no access in every state. -/
def Obligations.DecodeTruncates : Prop :=
  (∀ (s : State) (dst blen src hlen : Nat), blen < hlen / 2 →
    (Clear s { dir := .decode, dst, dcap := blen, src, slen := hlen } →
      exec (.decodeBuffer dst blen src hlen) s = exec (.decodeBuffer dst blen src (2 * blen)) s) ∧
    ∀ t, s.active < s.blocks.length → exec (.decodeBuffer dst blen src hlen) s = .next t →
      t.response s.active = some blen ∧
      ∀ a, ¬ (dst ≤ a ∧ a < dst + blen) → t.mem.read a = s.mem.read a) ∧
  ∀ (s : State) (dst src hlen : Nat),
    exec (.decodeBuffer dst 0 src hlen) s = .next (completed s s.mem 0)

/-- R160: two valid sources that differ in case only decode to the same count and the same bytes. -/
def Obligations.DecodeIgnoresCase : Prop :=
  ∀ (s t : State) (m' : Memory) (dst blen src hlen : Nat),
    s.mem.wf s.params.aw = true → m'.wf s.params.aw = true →
    (∀ k < 2 * min blen (hlen / 2), IsHexCode (s.mem.read (src + k)) ∧ IsHexCode (m'.read (src + k)) ∧
      lowered (m'.read (src + k)) = lowered (s.mem.read (src + k))) →
    exec (.decodeBuffer dst blen src hlen) s = .next t →
    ∃ t', exec (.decodeBuffer dst blen src hlen) { s with mem := m' } = .next t' ∧
      t'.blocks = t.blocks ∧
      ∀ k < min blen (hlen / 2), t'.mem.read (dst + k) = t.mem.read (dst + k)

/-- R161: bytes encoded into a large enough buffer and decoded into a large enough one come back as they were; a
valid text of even length decoded and encoded again comes back in lower case. -/
def Obligations.BufferRoundTrip : Prop :=
  (∀ (s t : State) (h hlen b len b2 blen : Nat), s.mem.wf s.params.aw = true →
    s.active < s.blocks.length → 2 * len ≤ hlen → len ≤ blen →
    exec (.encodeBuffer h hlen b len) s = .next t →
    Ready t { dir := .decode, dst := b2, dcap := blen, src := h, slen := 2 * len } →
    ∃ u, exec (.decodeBuffer b2 blen h (2 * len)) t = .next u ∧
      u.response s.active = some len ∧
      ∀ k < len, u.mem.read (b2 + k) = s.mem.read (b + k)) ∧
  ∀ (s t : State) (b blen h len h2 hlen : Nat), s.mem.wf s.params.aw = true →
    s.active < s.blocks.length → len ≤ blen → 2 * len ≤ hlen →
    (∀ k < 2 * len, IsHexCode (s.mem.read (h + k))) →
    exec (.decodeBuffer b blen h (2 * len)) s = .next t →
    Ready t { dir := .encode, dst := h2, dcap := hlen, src := b, slen := len } →
    ∃ u, exec (.encodeBuffer h2 hlen b len) t = .next u ∧
      u.response s.active = some (2 * len) ∧
      ∀ k < 2 * len, u.mem.read (h2 + k) = lowered (s.mem.read (h + k))

/-! ### Memory, refusals and the stuck case -/

/-- R43: reading an element gives the value just written to it, and a write replaces no other element. -/
def Obligations.MemoryReadAfterWrite : Prop :=
  ∀ (m : Memory) (aw a b : Nat) (v : Byte), m.wf aw = true →
    (m.write a v).read b = if b = a then v else m.read b

/-- The canonical form (the model's own representation of R40's memory, log 3): two memories in it that read
the same everywhere are the same data. -/
def Obligations.MemoryIsItsContents : Prop :=
  ∀ (m m' : Memory) (aw : Nat), m.wf aw = true → m'.wf aw = true →
    (∀ a, m.read a = m'.read a) → m = m'

/-- R42: a buffer command whose footprint would pass the top of the address space is refused; one that touches
nothing completes whatever its bases are. R42 says "refused" only: that the refusal is `footprintWraps` also
where the footprints share an address as well is the model's choice (log 7). -/
def Obligations.WrappingFootprintIsRefused : Prop :=
  ∀ (s : State) (i : Instr) (job : Job), jobOf i = some job →
    ((0 < job.iterations ∧ (2 ^ s.params.aw < job.readSpan.base + job.readSpan.count ∨
        2 ^ s.params.aw < job.writeSpan.base + job.writeSpan.count) →
      ∃ kind, exec i s = .refused (.footprintWraps kind)) ∧
    (job.iterations = 0 → exec i s = .next (completed s s.mem 0)))

/-- R56: a buffer command whose read and write footprints share an address is refused; with `n = 0` they share
none. That a wrapping footprint is named first, and an overlap before a race, a device or an address that is
not admitted, so that `footprintsOverlap` is the answer exactly there, is the model's choice (log 7). -/
def Obligations.OverlappingFootprintsAreRefused : Prop :=
  ∀ (s : State) (i : Instr) (job : Job), jobOf i = some job →
    ((∃ a, job.readSpan.Has a ∧ job.writeSpan.Has a) → ∃ r, exec i s = .refused r) ∧
    (job.readSpan.Fits s.params.aw → job.writeSpan.Fits s.params.aw →
      ((∃ a, job.readSpan.Has a ∧ job.writeSpan.Has a) ↔ exec i s = .refused .footprintsOverlap)) ∧
    (job.iterations = 0 → ¬ ∃ a, job.readSpan.Has a ∧ job.writeSpan.Has a)

/-- R42, R53, R55, R56, R58 together: a buffer command completes exactly where it is ready. The clause of `Ready` on
devices, no element of either buffer on one unless the command touches nothing, is the model's reading of R53
with R41 and R42, deduced and not the spec's words (log 14). -/
def Obligations.BufferCommandCompletesIffReady : Prop :=
  ∀ (s : State) (i : Instr) (job : Job), jobOf i = some job →
    ((∃ t, exec i s = .next t) ↔ Ready s job)

/-- R53, R41: a buffer command that touches memory and has an element of either buffer, touched or not, on a device
register is refused, in both step granularities. That the whole buffer counts, and not its touched footprint
alone, is the model's reading of R53 with R41 (log 14); that the name is `bufferOnDevice` where the footprints
neither wrap nor meet is the model's choice (log 7). -/
def Obligations.BufferOnDeviceIsRefused : Prop :=
  ∀ (s : State) (i : Instr) (job : Job) (a : Nat), jobOf i = some job → 0 < job.iterations →
    (job.srcBuffer.Has a ∨ job.dstBuffer.Has a) → s.deviceAt a = true →
    (∃ r, exec i s = .refused r ∧ begin i s = .refused r) ∧
    (Placed s.params.aw job → ∃ kind, exec i s = .refused (.bufferOnDevice kind))

/-- R55: with no command in flight and no device in the memory, a placed command completes where the memory admits
its footprints (they alone count), and is stuck, at an address that is not admitted, where it does not. That the fault ends the step of the whole
machine, other instances included, is the model's choice (log 15). -/
def Obligations.UnadmittedAccessIsStuck : Prop :=
  ∀ (s : State) (i : Instr) (job : Job), jobOf i = some job → Placed s.params.aw job →
    (∀ b ∈ s.blocks, b.flight = none) → (∀ r ∈ s.regions, r.kind = .plain) →
    if (∀ k < job.readSpan.count, mayAccess s .read (job.readSpan.base + k) = true) ∧
        (∀ k < job.writeSpan.count, mayAccess s .write (job.writeSpan.base + k) = true)
    then ∃ t, exec i s = .next t
    else ∃ kind a, exec i s = .fault (.notAdmitted kind a) ∧ mayAccess s kind a = false

/-- R58, the caller's side: a caller's write into a footprint of a command in flight, or its read of a write
footprint, is refused as a race; a read of what no command in flight writes never is. That the race is found
at the caller's access, and is named before a device that lies there, is the model's choice (log 7). -/
def Obligations.CallerRaceIsRefused : Prop :=
  ∀ (s : State) (a : Nat) (v : Byte) (rest : List Event), a < 2 ^ s.params.aw →
    ((∃ b ∈ s.blocks, ∃ f, b.flight = some f ∧ (f.job.readSpan.Has a ∨ f.job.writeSpan.Has a)) →
      step { s with inbox := .callerWrite a v :: rest } = .refused (.race .write a)) ∧
    ((∃ b ∈ s.blocks, ∃ f, b.flight = some f ∧ f.job.writeSpan.Has a) →
      step { s with inbox := .callerRead a :: rest } = .refused (.race .read a)) ∧
    ((∀ b ∈ s.blocks, ∀ f, b.flight = some f → ¬ f.job.writeSpan.Has a) →
      step { s with inbox := .callerRead a :: rest } ≠ .refused (.race .read a))

/-- R58, the blocks' side: a buffer command that would write into a footprint of another block's command in
flight, or read from its write footprint, does not complete. -/
def Obligations.RacingCommandDoesNotComplete : Prop :=
  ∀ (s t : State) (i : Instr) (job : Job) (k a : Nat) (b : Block) (f : Flight), jobOf i = some job →
    s.blocks[k]? = some b → k ≠ s.active → b.flight = some f →
    (job.writeSpan.Has a ∧ (f.job.readSpan.Has a ∨ f.job.writeSpan.Has a) ∨
      job.readSpan.Has a ∧ f.job.writeSpan.Has a) →
    exec i s ≠ .next t

/-! ### The machine -/

/-- A step with a command word at an idle block runs the decoded instruction: `exec` of it on the state with
the word taken and that block moving. -/
def Obligations.StepRunsTheCommand : Prop :=
  ∀ (s : State) (k w : Nat) (rest : List Event) (i : Instr), s.inbox = .command k w :: rest →
    k < s.blocks.length → s.busy k = false → decode s.params w = .ok i →
    step s = exec i { s with active := k, inbox := rest }

/-- R79: a block with a command in flight accepts no other. That the word stays at the head of the inbox, and that
the step is that block's next move, is the model's choice (log 10). -/
def Obligations.BusyBlockAcceptsNothing : Prop :=
  ∀ (s t : State) (k w : Nat) (rest : List Event),
    k < s.blocks.length → s.busy k = true →
    (s.inbox = .command k w :: rest ∨ s.inbox = .start k w :: rest) →
    step s = advance { s with active := k } ∧ (step s = .next t → t.inbox = s.inbox)

/-- R190: the reset input of a block with no command in flight completes: that block is idle with no response
pending, and nothing else changes, the memory included. -/
def Obligations.ResetInputLeavesTheBlockIdle : Prop :=
  ∀ (s : State) (k : Nat) (rest : List Event), k < s.blocks.length → s.busy k = false →
    step { s with inbox := .reset k :: rest }
      = .next { s with blocks := s.blocks.set k { flight := none, rsp := none }, inbox := rest }

/-- R191 (and log 8, the model's choice): the reset input of a block with a command in flight is no move of
the model. -/
def Obligations.ResetInFlightIsRefused : Prop :=
  ∀ (s : State) (k : Nat) (rest : List Event), k < s.blocks.length → s.busy k = true →
    step { s with inbox := .reset k :: rest } = .refused (.resetInFlight k)

/-- R33, R190: after reset no command is in flight and no response is pending, and the machine meets its
invariant. The parameters, the memory and what it admits are the model's choices (logs 1, 3, 4). -/
def Obligations.ResetStateIsIdle : Prop :=
  (∀ k, State.reset.busy k = false ∧ State.reset.response k = none) ∧ Inv State.reset

/-- The invariant `Inv` (parameters in bounds, memory canonical and inside the address space, responses within
`LW` bits, commands in flight placed and with no buffer on a device register, their indices those of an
iteration, no response pending beside one) is kept by every step from every state that has it. Two of its
clauses are the model's and not the spec's words: the canonical form of the memory is its choice of how to hold
R40's memory (log 3), and that no element of a buffer in flight, touched or not, lies on a device register is
its reading of R53 with R41, deduced (log 14). -/
def Obligations.StepKeepsInv : Prop :=
  ∀ s t : State, Inv s → step s = .next t → Inv t

/-- R137, R157: while a command is in flight, `i`, `j`, `j + 1` and the count so far fit `LW` bits, and before each
of its iterations the addresses that iteration forms lie inside the address space. -/
def Obligations.TransientValuesFit : Prop :=
  ∀ (p : Params) (f : Flight), p.Valid → FlightOk p f →
    f.i < 2 ^ p.lw ∧ f.j < 2 ^ p.lw ∧ f.j + 1 < 2 ^ p.lw ∧ f.job.countAt f.i f.j < 2 ^ p.lw ∧
    (f.i < f.job.iterations →
      (f.job.dir = .encode → f.job.src + f.i < 2 ^ p.aw ∧ f.job.dst + f.j + 1 < 2 ^ p.aw) ∧
      (f.job.dir = .decode → f.job.src + f.j + 1 < 2 ^ p.aw ∧ f.job.dst + f.i < 2 ^ p.aw))

/-- R60: for a buffer command at an idle block, the one step and the access-by-access run of `3n + 1` moves in
the order of R57 have the same outcome. R60 says so of the response and the final memory; that both stop
alike where they stop goes past it and is the model's (logs 7 and 11). -/
def Obligations.AtomicStepEqualsAccessByAccess : Prop :=
  ∀ (s : State) (i : Instr) (job : Job), jobOf i = some job →
    s.active < s.blocks.length → s.busy s.active = false →
    exec i s = andThen (begin i s) (advanceBy (3 * job.iterations + 1))

/-- R57, one iteration: three moves from the head of an iteration make the accesses of the loop body in its
order and step the indices. -/
def Obligations.IterationAccessOrder : Prop :=
  ∀ (s : State) (f : Flight), s.active < s.blocks.length → s.flight? = some f → f.phase = .fetch →
    loopTest f.i f.job.blen f.j f.job.hlen = true →
    advanceBy 3 s
      = andThen (match f.job.dir with
          | .encode =>
            andThen (s.load (f.job.src + f.i)) fun b =>
            andThen (s.store (f.job.dst + f.j) (nibbleToHexChar (b >>> 4))) fun s1 =>
            s1.store (f.job.dst + f.j + 1) (nibbleToHexChar (b &&& 0x0F#8))
          | .decode =>
            andThen (s.load (f.job.src + f.j)) fun hi =>
            andThen (s.load (f.job.src + f.j + 1)) fun lo =>
            s.store (f.job.dst + f.i) (packNibbles (hexCharToNibble hi) (hexCharToNibble lo)))
        fun s' => .next (s'.setFlight { f with i := f.i + 1, j := f.j + 2, phase := .fetch })

/-- R142, R162: an accepted command that is let run access by access delivers its response with its move
`3n + 1` and not before. -/
def Obligations.FlightEndsAfterItsIterations : Prop :=
  ∀ (s u t : State) (i : Instr) (job : Job) (m : Nat), jobOf i = some job →
    s.active < s.blocks.length → begin i s = .next u → advanceBy m u = .next t →
    (m ≤ 3 * job.iterations → t.flight?.isSome = true ∧ t.response s.active = none) ∧
    (m = 3 * job.iterations + 1 → t.flight? = none ∧
      t.response s.active = some (job.countAt job.iterations (2 * job.iterations)))

/-- R66: whatever step changes an element of memory, either the caller wrote that element, or it lies inside the
destination, as its capacity bounds it, of the command that the moving block has in flight or was given. -/
def Obligations.OnlyDestinationsAreWritten : Prop :=
  ∀ (s t : State) (a : Nat), Inv s → step s = .next t → t.mem.read a ≠ s.mem.read a →
    (∃ v rest, s.inbox = .callerWrite a v :: rest) ∨
    ∃ job : Job, job.dst ≤ a ∧ a < job.dst + job.dcap ∧
      ((∃ b f, s.blocks[t.active]? = some b ∧ b.flight = some f ∧ f.job = job) ∨
       ∃ w rest i, s.inbox = .command t.active w :: rest ∧ decode s.params w = .ok i ∧ jobOf i = some job)

/-- R51 (and R20): the prior content of the destination has no effect, and neither has any other byte outside the
read footprint: with a memory that agrees on that footprint the command completes as well, with the same
response, the same bytes in its write footprint, and the same state but for the memory. -/
def Obligations.DestinationContentHasNoEffect : Prop :=
  ∀ (s t : State) (i : Instr) (m' : Memory),
    s.mem.wf s.params.aw = true → m'.wf s.params.aw = true →
    (∀ job, jobOf i = some job → AgreeOn job.readSpan s.mem m') →
    exec i s = .next t →
    ∃ t', exec i { s with mem := m' } = .next t' ∧ t' = { t with mem := t'.mem } ∧
      ∀ job, jobOf i = some job → AgreeOn job.writeSpan t.mem t'.mem

/-- R20, R9: the response of an operation and the bytes it writes are a function of its operands and of the bytes
of its read footprint, and of nothing else: not of earlier operations, not of the instance, not of `AW`, `LW`
or `N_INST`. The two states may differ in everything but those bytes. -/
def Obligations.ResultIsAFunctionOfOperandsAndSource : Prop :=
  ∀ (s s' t t' : State) (i : Instr),
    s.mem.wf s.params.aw = true → s'.mem.wf s'.params.aw = true →
    s.active < s.blocks.length → s'.active < s'.blocks.length →
    (∀ job, jobOf i = some job → AgreeOn job.readSpan s.mem s'.mem) →
    exec i s = .next t → exec i s' = .next t' →
    t'.response s'.active = t.response s.active ∧
    ∀ job, jobOf i = some job → AgreeOn job.writeSpan t.mem t'.mem

/-- R32, R181: the one block that a step can change is the block that the event names, or, where the inbox is empty,
the one that moved (`active`, the model's own field, log 6); the caller's own accesses change none. No step changes
the widths or the number of blocks, which are the parameters of R8 (held in State by the model's choice, log 1),
or the regions: that what the memory admits at the launch (R55) stays as it was is the model's choice (log 4). -/
def Obligations.StepLeavesOtherBlocks : Prop :=
  ∀ s t : State, step s = .next t →
    t.params = s.params ∧ t.regions = s.regions ∧ t.blocks.length = s.blocks.length ∧
    match s.inbox with
    | [] => ∀ j : Nat, j ≠ t.active → t.blocks[j]? = s.blocks[j]?
    | .command k _ :: _ => t.active = k ∧ ∀ j : Nat, j ≠ k → t.blocks[j]? = s.blocks[j]?
    | .start k _ :: _ => t.active = k ∧ ∀ j : Nat, j ≠ k → t.blocks[j]? = s.blocks[j]?
    | .tick k :: _ => t.active = k ∧ ∀ j : Nat, j ≠ k → t.blocks[j]? = s.blocks[j]?
    | .reset k :: _ => ∀ j : Nat, j ≠ k → t.blocks[j]? = s.blocks[j]?
    | .callerRead _ :: _ => t.blocks = s.blocks
    | .callerWrite _ _ :: _ => t.blocks = s.blocks

/-- R58, R196: a caller's write that races with nothing, at an address where no device lies, completes, changes
that one element and nothing else of memory, and leaves every block as it was. That it completes also where no
region admits the address is the model's choice (log 4). -/
def Obligations.CallerWriteCompletes : Prop :=
  ∀ (s : State) (a : Nat) (v : Byte) (rest : List Event), s.mem.wf s.params.aw = true →
    a < 2 ^ s.params.aw → s.raced none .write a = false → (∀ r, s.regionAt a = some r → r.kind = .plain) →
    ∃ m : Memory,
      step { s with inbox := .callerWrite a v :: rest } = .next { s with mem := m, inbox := rest } ∧
      m.read a = v ∧ ∀ b, b ≠ a → m.read b = s.mem.read b

/-- R53, R58: a caller's read that races with nothing, at an address where no device lies, completes and changes
nothing but the inbox it was taken from. That it completes also where no region admits the address is the
model's choice (log 4). -/
def Obligations.CallerReadChangesNothing : Prop :=
  ∀ (s : State) (a : Nat) (rest : List Event), a < 2 ^ s.params.aw → s.raced none .read a = false →
    (∀ r, s.regionAt a = some r → r.kind = .plain) →
    step { s with inbox := .callerRead a :: rest } = .next { s with inbox := rest }

/-- R30, R31, R60: a step with a word to be performed access by access at an idle block is `begin` of the decoded
instruction: a primitive operation, which makes no access, is performed at once; a buffer command is taken in
flight with both indices 0 and nothing latched, the old response gone, where its footprints neither wrap nor
meet (R42, R56) and no buffer of it is on a device register (R53, log 14), and refused elsewhere. -/
def Obligations.StepStartsTheCommand : Prop :=
  ∀ (s : State) (k w : Nat) (rest : List Event) (i : Instr), s.inbox = .start k w :: rest →
    k < s.blocks.length → s.busy k = false → decode s.params w = .ok i →
    step s = begin i { s with active := k, inbox := rest } ∧
    (jobOf i = none → step s = exec i { s with active := k, inbox := rest }) ∧
    ∀ job, jobOf i = some job →
      if Acceptable s job then
        step s = .next { s with
          active := k, inbox := rest
          blocks := s.blocks.set k { flight := some { job, i := 0, j := 0, phase := .fetch }, rsp := none } }
      else ∃ r, step s = .refused r

/-- R57 (the turn of a block as an event is the model's, log 10): a tick is the next move of the block it names,
and for an idle block nothing but the taking of the event (R183). -/
def Obligations.TickMovesTheBlock : Prop :=
  ∀ (s : State) (k : Nat) (rest : List Event), s.inbox = .tick k :: rest → k < s.blocks.length →
    step s = advance { s with active := k, inbox := rest } ∧
    (s.busy k = false → step s = .next { s with active := k, inbox := rest })

/-- R183: an idle machine to which nothing happens holds what it held. That with an empty inbox the first block
with a command in flight makes the next move is the model's choice (log 10). -/
def Obligations.QuietStepMovesTheFirstBusyBlock : Prop :=
  ∀ s : State, s.inbox = [] →
    ((∀ k, s.busy k = false) → step s = .next s) ∧
    ∀ k, s.busy k = true → (∀ j < k, s.busy j = false) → step s = advance { s with active := k }
end

