-- ==== Sys2Proof/Laws/State.lean ====
section
/-! SUPPORT. One lemma per field and update of the state, and what an update of the block that moves leaves
of the other agents. -/

namespace Sys2Proof.Machine

section Fields
variable (s : State) (f : Block → Block) (m : Memory) (v k : Nat) (fl : Flight) (job : Job) (rest : List Event)

@[simp] theorem State.onActive_params : (s.onActive f).params = s.params := rfl
@[simp] theorem State.onActive_mem : (s.onActive f).mem = s.mem := rfl
@[simp] theorem State.onActive_regions : (s.onActive f).regions = s.regions := rfl
@[simp] theorem State.onActive_active : (s.onActive f).active = s.active := rfl
@[simp] theorem State.onActive_inbox : (s.onActive f).inbox = s.inbox := rfl
@[simp] theorem State.onActive_blocks : (s.onActive f).blocks = s.blocks.modify s.active f := rfl

@[simp] theorem State.deliver_params : (s.deliver v).params = s.params := rfl
@[simp] theorem State.deliver_mem : (s.deliver v).mem = s.mem := rfl
@[simp] theorem State.deliver_regions : (s.deliver v).regions = s.regions := rfl
@[simp] theorem State.deliver_active : (s.deliver v).active = s.active := rfl
@[simp] theorem State.deliver_inbox : (s.deliver v).inbox = s.inbox := rfl
@[simp] theorem State.deliver_blocks : (s.deliver v).blocks
    = s.blocks.modify s.active fun b => { b with flight := none, rsp := some v } := rfl

@[simp] theorem State.setFlight_params : (s.setFlight fl).params = s.params := rfl
@[simp] theorem State.setFlight_mem : (s.setFlight fl).mem = s.mem := rfl
@[simp] theorem State.setFlight_regions : (s.setFlight fl).regions = s.regions := rfl
@[simp] theorem State.setFlight_active : (s.setFlight fl).active = s.active := rfl
@[simp] theorem State.setFlight_inbox : (s.setFlight fl).inbox = s.inbox := rfl
@[simp] theorem State.setFlight_blocks : (s.setFlight fl).blocks
    = s.blocks.modify s.active fun b => { b with flight := some fl } := rfl

@[simp] theorem State.launch_params : (s.launch job).params = s.params := rfl
@[simp] theorem State.launch_mem : (s.launch job).mem = s.mem := rfl
@[simp] theorem State.launch_regions : (s.launch job).regions = s.regions := rfl
@[simp] theorem State.launch_active : (s.launch job).active = s.active := rfl
@[simp] theorem State.launch_inbox : (s.launch job).inbox = s.inbox := rfl
@[simp] theorem State.launch_blocks : (s.launch job).blocks = s.blocks.modify s.active
    fun _ => { flight := some { job, i := 0, j := 0, phase := .fetch }, rsp := none } := rfl

@[simp] theorem State.taken_params : (s.taken k rest).params = s.params := rfl
@[simp] theorem State.taken_mem : (s.taken k rest).mem = s.mem := rfl
@[simp] theorem State.taken_regions : (s.taken k rest).regions = s.regions := rfl
@[simp] theorem State.taken_active : (s.taken k rest).active = k := rfl
@[simp] theorem State.taken_inbox : (s.taken k rest).inbox = rest := rfl
@[simp] theorem State.taken_blocks : (s.taken k rest).blocks = s.blocks := rfl

@[simp] theorem State.turnOf_params : (s.turnOf k).params = s.params := rfl
@[simp] theorem State.turnOf_mem : (s.turnOf k).mem = s.mem := rfl
@[simp] theorem State.turnOf_regions : (s.turnOf k).regions = s.regions := rfl
@[simp] theorem State.turnOf_active : (s.turnOf k).active = k := rfl
@[simp] theorem State.turnOf_inbox : (s.turnOf k).inbox = s.inbox := rfl
@[simp] theorem State.turnOf_blocks : (s.turnOf k).blocks = s.blocks := rfl

/-- `completed` is the model's delivery after the memory writes. -/
theorem deliver_eq_completed : (({ s with mem := m } : State).deliver v) = Safety.completed s m v := rfl

end Fields

/-- Changing a list at an index leaves what erasing that index leaves. -/
theorem eraseIdx_modify_self {α : Type} (f : α → α) : ∀ (l : List α) (k : Nat),
    (l.modify k f).eraseIdx k = l.eraseIdx k
  | [], k => by cases k <;> rfl
  | _ :: _, 0 => rfl
  | x :: l, k + 1 => by simp [eraseIdx_modify_self f l k]

/-- What the block that moves does with its own ports is nothing to the other agents (R32). -/
@[simp] theorem State.onActive_othersThan (s : State) (f : Block → Block) :
    (s.onActive f).othersThan (some s.active) = s.othersThan (some s.active) :=
  eraseIdx_modify_self f s.blocks s.active

/-- Two updates of the block that moves are one. -/
theorem State.onActive_onActive (s : State) (f g : Block → Block) :
    (s.onActive f).onActive g = s.onActive fun b => g (f b) := by
  simp only [State.onActive, List.modify_modify_eq]
  rfl

/-- The command in flight at the block that moves, after an update of that block. -/
theorem State.onActive_flight? (s : State) (f : Block → Block) (h : s.active < s.blocks.length) :
    (s.onActive f).flight? = (f s.blocks[s.active]).flight := by
  simp [State.flight?, List.getElem?_modify_eq, List.getElem?_eq_getElem h]

/-- The command in flight at the block that moves, once recorded. -/
theorem State.setFlight_flight? (s : State) (f : Flight) (h : s.active < s.blocks.length) :
    (s.setFlight f).flight? = some f := s.onActive_flight? _ h

/-- The last record of a command in flight counts. -/
theorem State.setFlight_setFlight (s : State) (f g : Flight) : (s.setFlight f).setFlight g = s.setFlight g :=
  s.onActive_onActive _ _

/-- A property of all elements of a list holds after one is changed, if the change keeps it there. -/
theorem forall_mem_modify {α : Type} {P : α → Prop} {f : α → α} : ∀ {l : List α} {k : Nat}, (∀ b ∈ l, P b) →
    (∀ b, l[k]? = some b → P (f b)) → ∀ b ∈ l.modify k f, P b
  | [], k, h, _ => by simp
  | x :: l, 0, h, hf => by
    intro b hb
    simp only [List.modify_zero_cons, List.mem_cons] at hb
    rcases hb with rfl | hb
    · exact hf x rfl
    · exact h b (by simp [hb])
  | x :: l, k + 1, h, hf => by
    intro b hb
    simp only [List.modify_succ_cons, List.mem_cons] at hb
    rcases hb with rfl | hb
    · exact h _ (by simp)
    · exact forall_mem_modify (fun b hb => h b (by simp [hb])) (fun b hb => hf b (by simpa using hb)) b hb

/-- The response port after a delivery (R78). -/
theorem State.deliver_response (s : State) (v : Nat) (h : s.active < s.blocks.length) :
    (s.deliver v).response s.active = some v := by
  simp [State.response, List.getElem?_modify_eq, List.getElem?_eq_getElem h]

/-- The response port after a completed command (R78). -/
theorem completed_response (s : State) (m : Memory) (v : Nat) (h : s.active < s.blocks.length) :
    (Safety.completed s m v).response s.active = some v :=
  State.deliver_response { s with mem := m } v h

end Sys2Proof.Machine
end

