-- ==== Sys2Proof/Laws/Access.lean ====
section
/-! SUPPORT. Everything the access operations can do: `andThen`, `State.access`, `State.load`,
`State.store` and `State.accept`. -/

namespace Sys2Proof.Machine

open Sys2Proof.Safety

section AndThen
variable {α β γ : Type}

@[simp] theorem andThen_next (x : α) (f : α → Res β) : andThen (.next x) f = f x := rfl
@[simp] theorem andThen_fault (e : Fault) (f : α → Res β) : andThen (.fault e) f = .fault e := rfl
@[simp] theorem andThen_refused (e : Refusal) (f : α → Res β) : andThen (.refused e) f = .refused e := rfl

/-- Two continuations that agree on the answer go on alike. -/
theorem andThen_congr {r : Res α} {f g : α → Res β} (h : ∀ x, r = .next x → f x = g x) :
    andThen r f = andThen r g := by
  cases r with
  | next x => exact h x rfl
  | fault e => rfl
  | refused e => rfl

/-- Going on is associative. -/
theorem andThen_assoc (r : Res α) (f : α → Res β) (g : β → Res γ) :
    andThen (andThen r f) g = andThen r fun x => andThen (f x) g := by cases r <;> rfl

/-- A chain answers a value exactly where each part does. -/
theorem andThen_eq_next {r : Res α} {f : α → Res β} {y : β} :
    andThen r f = .next y ↔ ∃ x, r = .next x ∧ f x = .next y := by cases r <;> simp

end AndThen

/-- The region of an address is one of the machine's. -/
theorem regionAt_mem {s : State} {a : Nat} {r : Region} (h : s.regionAt a = some r) : r ∈ s.regions := by
  unfold State.regionAt at h
  by_cases ha : a < 2 ^ s.params.aw
  · rw [if_pos ha] at h
    exact List.mem_of_find?_eq_some h
  · rw [if_neg ha] at h
    cases h

/-- An access is allowed exactly where no other agent races and admitted plain memory lies there. -/
theorem access_eq_next {s : State} {kind : AccessKind} {a : Nat} :
    s.access kind a = .next () ↔ mayAccess s kind a = true := by
  unfold State.access mayAccess
  cases s.raced (some s.active) kind a
  · cases s.regionAt a with
    | none => simp
    | some r =>
      cases hk : r.kind
      · cases ha : r.admits kind <;> simp [hk, ha]
      · simp [hk]
  · simp

/-- An admitted address is one of the address space (R40). -/
theorem mayAccess_lt {s : State} {kind : AccessKind} {a : Nat} (h : mayAccess s kind a = true) :
    a < 2 ^ s.params.aw := by
  unfold mayAccess State.regionAt at h
  by_contra hlt
  simp [hlt] at h

/-- What a memory holds has no part in whether it may be accessed. -/
@[simp] theorem access_withMem (s : State) (m : Memory) : ({ s with mem := m } : State).access = s.access := rfl

/-- What the moving block holds has no part in whether it may access memory. -/
@[simp] theorem access_onActive (s : State) (f : Block → Block) : (s.onActive f).access = s.access := by
  funext kind a
  simp only [State.access, State.raced, State.onActive_active, State.onActive_othersThan]
  rfl

/-- A read answers exactly where it is allowed, with the byte the memory holds. -/
theorem load_eq_next {s : State} {a : Nat} {b : Byte} :
    s.load a = .next b ↔ mayAccess s .read a = true ∧ b = s.mem.read a := by
  simp only [State.load, andThen_eq_next, ← access_eq_next]
  constructor
  · rintro ⟨_, h, hb⟩
    exact ⟨h, by simpa using hb.symm⟩
  · rintro ⟨h, rfl⟩
    exact ⟨(), h, rfl⟩

/-- A write answers exactly where it is allowed, and changes the memory alone. -/
theorem store_eq_next {s t : State} {a : Nat} {v : Byte} :
    s.store a v = .next t ↔ mayAccess s .write a = true ∧ t = { s with mem := s.mem.write a v } := by
  simp only [State.store, andThen_eq_next, ← access_eq_next]
  constructor
  · rintro ⟨_, h, ht⟩
    exact ⟨h, by simpa using ht.symm⟩
  · rintro ⟨h, rfl⟩
    exact ⟨(), h, rfl⟩

/-- A read is nothing to what the moving block holds. -/
theorem load_onActive (s : State) (f : Block → Block) (a : Nat) : (s.onActive f).load a = s.load a := by
  unfold State.load
  rw [access_onActive]
  rfl

/-- A write is nothing to what the moving block holds. -/
theorem store_onActive (s : State) (f : Block → Block) (a : Nat) (v : Byte) :
    (s.onActive f).store a v = andThen (s.store a v) fun t => .next (t.onActive f) := by
  unfold State.store
  rw [access_onActive, andThen_assoc]
  rfl

/-- The ways an operation that only makes accesses in state `s` can end: it goes on, or it stops for one of the
three reasons an access stops for (R53, R55, R58). -/
def AccessEnds {α : Type} (s : State) (r : Res α) : Prop :=
  match r with
  | .next _ => True
  | .fault (.notAdmitted kind a) => mayAccess s kind a = false
  | .refused (.race kind a) => s.raced (some s.active) kind a = true
  | .refused (.deviceAccess _) => ∃ r ∈ s.regions, r.kind = .device
  | .refused _ => False

/-- One access ends in one of these ways. -/
theorem access_ends (s : State) (kind : AccessKind) (a : Nat) : AccessEnds s (s.access kind a) := by
  unfold State.access
  cases hr : s.raced (some s.active) kind a
  · cases hg : s.regionAt a with
    | none => simp [AccessEnds, mayAccess, hg]
    | some r =>
      cases hk : r.kind
      · cases ha : r.admits kind <;> simp [AccessEnds, mayAccess, hg, hk, ha]
      · simp only [Bool.false_eq_true, if_false, hk]
        exact ⟨r, regionAt_mem hg, hk⟩
  · simpa [AccessEnds] using hr

/-- A chain of operations that only make accesses ends in one of these ways. -/
theorem AccessEnds.chain {α β : Type} {s : State} {r : Res α} {f : α → Res β} (hr : AccessEnds s r)
    (hf : ∀ x, r = .next x → AccessEnds s (f x)) : AccessEnds s (andThen r f) := by
  cases r with
  | next x => exact hf x rfl
  | fault e => exact hr
  | refused e => cases e <;> exact hr

/-- A read ends in one of these ways, whatever the memory holds. -/
theorem load_ends (s : State) (m : Memory) (a : Nat) : AccessEnds s (({ s with mem := m } : State).load a) :=
  AccessEnds.chain (access_ends s .read a) fun _ _ => trivial

/-- A write ends in one of these ways, whatever the memory holds. -/
theorem store_ends (s : State) (m : Memory) (a : Nat) (v : Byte) :
    AccessEnds s (({ s with mem := m } : State).store a v) :=
  AccessEnds.chain (access_ends s .write a) fun _ _ => trivial

/-- A device register lies only where some region is a device. -/
theorem deviceAt_region {s : State} {a : Nat} (h : s.deviceAt a = true) : ∃ r ∈ s.regions, r.kind = .device := by
  unfold State.deviceAt at h
  cases hg : s.regionAt a with
  | none => simp [hg] at h
  | some r => exact ⟨r, regionAt_mem hg, by simpa [hg] using h⟩

/-- A span is on no device exactly where none of its elements is (R53). -/
theorem onDevice_eq_false {s : State} {sp : Span} :
    s.onDevice sp = false ↔ ∀ k < sp.count, s.deviceAt (sp.base + k) = false := by
  unfold State.onDevice
  constructor
  · intro h k hk
    by_contra hd
    obtain ⟨r, hr, hrk⟩ := deviceAt_region (Bool.not_eq_false _ ▸ hd)
    rw [List.any_eq_true.mpr ⟨r, hr, by simpa using hrk⟩, Bool.true_and, List.any_eq_false] at h
    exact h k (List.mem_range.mpr hk) (by simpa using hd)
  · intro h
    rw [List.any_eq_false (l := List.range sp.count) |>.mpr fun k hk => by simp [h k (List.mem_range.mp hk)],
      Bool.and_false]

/-- The footprints are admitted exactly where they fit and do not meet (R42, R56). -/
theorem admitSpans_eq_next {aw : Nat} {x y : Span} :
    admitSpans aw x y = .next () ↔ x.Fits aw ∧ y.Fits aw ∧ ¬ x.Meets y := by
  unfold admitSpans
  by_cases hx : x.Fits aw
  · by_cases hy : y.Fits aw
    · by_cases hm : x.Meets y
      · rw [if_neg (not_not.mpr hx), if_neg (not_not.mpr hy), if_pos hm]
        exact ⟨nofun, fun h => absurd hm h.2.2⟩
      · rw [if_neg (not_not.mpr hx), if_neg (not_not.mpr hy), if_neg hm]
        exact ⟨fun _ => ⟨hx, hy, hm⟩, fun _ => rfl⟩
    · rw [if_neg (not_not.mpr hx), if_pos hy]
      exact ⟨nofun, fun h => absurd h.2.1 hy⟩
  · rw [if_pos hx]
    exact ⟨nofun, fun h => absurd h.1 hx⟩

/-- A buffer command is accepted exactly where its footprints fit and do not meet and no buffer is on a device
(R42, R53, R56). -/
theorem accept_eq_next {s : State} {job : Job} : s.accept job = .next () ↔ Acceptable s job := by
  unfold State.accept
  rw [andThen_eq_next]
  constructor
  · rintro ⟨_, hp, h⟩
    refine ⟨admitSpans_eq_next.mp hp, fun hn => ?_⟩
    rw [if_neg (Nat.ne_of_gt hn)] at h
    split at h
    · cases h
    · rename_i hs
      split at h
      · cases h
      · rename_i hd
        exact ⟨onDevice_eq_false.mp (by simpa using hs), onDevice_eq_false.mp (by simpa using hd)⟩
  · rintro ⟨hp, hc⟩
    refine ⟨(), admitSpans_eq_next.mpr hp, ?_⟩
    split
    · rfl
    · rename_i hn
      obtain ⟨hs, hd⟩ := hc (Nat.pos_of_ne_zero hn)
      rw [onDevice_eq_false.mpr hs, onDevice_eq_false.mpr hd]
      rfl

/-- A command whose footprints are refused is refused for the same reason (R42, R56; log 7). -/
theorem accept_spans_refused {s : State} {job : Job} {r : Refusal}
    (h : admitSpans s.params.aw job.readSpan job.writeSpan = .refused r) : s.accept job = .refused r := by
  rw [State.accept, h, andThen_refused]

/-- A placed command that is not accepted is refused for a buffer on a device (R53; log 7). -/
theorem accept_placed_refused {s : State} {job : Job} (hp : Placed s.params.aw job) (hc : ¬ Clear s job) :
    ∃ kind, s.accept job = .refused (.bufferOnDevice kind) := by
  have h := accept_eq_next.not.mpr fun h => hc h.2
  rw [State.accept, admitSpans_eq_next.mpr hp, andThen_next] at h ⊢
  split at h
  · exact absurd rfl h
  · rename_i hn
    rw [if_neg hn]
    split
    · exact ⟨.read, rfl⟩
    · rename_i hs
      rw [if_neg hs] at h
      split at h
      · rename_i hd
        exact ⟨.write, if_pos hd⟩
      · exact absurd rfl h

/-- A buffer command is accepted, or refused (R42, R53, R56). -/
theorem accept_cases (s : State) (job : Job) : s.accept job = .next () ∨ ∃ r, s.accept job = .refused r := by
  unfold State.accept admitSpans
  split
  · exact .inr ⟨_, rfl⟩
  · split
    · exact .inr ⟨_, rfl⟩
    · split
      · exact .inr ⟨_, rfl⟩
      · rw [andThen_next]
        split
        · exact .inl rfl
        · split
          · exact .inr ⟨_, rfl⟩
          · split
            · exact .inr ⟨_, rfl⟩
            · exact .inl rfl

/-- A command no buffer of which is on a device register still is so with less of either buffer. -/
theorem clear_of_smaller {s : State} {x y : Job} (h : Clear s x) (hn : y.iterations = x.iterations)
    (hsrc : y.src = x.src) (hdst : y.dst = x.dst) (hs : y.slen ≤ x.slen) (hd : y.dcap ≤ x.dcap) : Clear s y := by
  intro hy
  obtain ⟨h1, h2⟩ := h (hn ▸ hy)
  simp only [Job.srcBuffer, Job.dstBuffer, hsrc, hdst] at *
  exact ⟨fun k hk => h1 k (by omega), fun k hk => h2 k (by omega)⟩

end Sys2Proof.Machine
end

