-- ==== Sys2Proof/Laws/Memory.lean ====
section
/-! SUPPORT. The memory: what a write leaves to read, and its canonical form. -/

namespace Sys2Proof.Machine

/-- In a list whose addresses lie from `lo` up, a lower address reads as unlisted. -/
theorem lookupCell_below {hi a : Nat} : ∀ {l : List Host.Cell} {lo : Nat}, cellsWf lo hi l = true → a < lo →
    lookupCell a l = Memory.unlisted
  | [], _, _, _ => rfl
  | (b, u) :: rest, lo, h, ha => by
    simp only [cellsWf, Bool.and_eq_true, decide_eq_true_eq] at h
    have hne : a ≠ b := by omega
    simp only [lookupCell, if_neg hne]
    exact lookupCell_below h.2 (by omega)

/-- A list in canonical form from a higher bound up is one from a lower bound up. -/
theorem cellsWf_mono {hi lo lo' : Nat} (hl : lo' ≤ lo) : ∀ {l : List Host.Cell}, cellsWf lo hi l = true →
    cellsWf lo' hi l = true
  | [], _ => rfl
  | (b, u) :: rest, h => by
    simp only [cellsWf, Bool.and_eq_true, decide_eq_true_eq] at h ⊢
    exact ⟨⟨⟨by omega, h.1.1.2⟩, h.1.2⟩, h.2⟩

/-- Reading another address is not changed by an insertion. -/
theorem lookupCell_insertCell_other {a b : Nat} {v : Byte} (hne : b ≠ a) : ∀ l : List Host.Cell,
    lookupCell b (insertCell a v l) = lookupCell b l
  | [] => by
    unfold insertCell
    split <;> simp [lookupCell, hne]
  | (c, u) :: rest => by
    have ih := lookupCell_insertCell_other (v := v) hne rest
    unfold insertCell
    split
    · split <;> simp [lookupCell, hne]
    · split
      · rename_i hac
        subst hac
        split <;> simp [lookupCell, hne]
      · simp [lookupCell, ih]

/-- Reading an address gives what was inserted there. -/
theorem lookupCell_insertCell_self {a hi : Nat} {v : Byte} : ∀ {l : List Host.Cell} {lo : Nat},
    cellsWf lo hi l = true → lookupCell a (insertCell a v l) = v
  | [], _, _ => by
    unfold insertCell
    split <;> simp_all [lookupCell]
  | (c, u) :: rest, lo, h => by
    have h' := h
    simp only [cellsWf, Bool.and_eq_true, decide_eq_true_eq] at h
    unfold insertCell
    split
    · rename_i hac
      split
      · rename_i hv
        have hne : a ≠ c := by omega
        rw [hv]
        simp only [lookupCell, if_neg hne]
        exact lookupCell_below h.2 (by omega)
      · simp [lookupCell]
    · split
      · rename_i hac
        split
        · rename_i hv
          rw [hv]
          exact lookupCell_below h.2 (by omega)
        · simp [lookupCell]
      · rename_i hne
        simp only [lookupCell, if_neg hne]
        exact lookupCell_insertCell_self h.2

/-- An insertion below the top keeps the canonical form. -/
theorem cellsWf_insertCell {a hi : Nat} {v : Byte} (ha : a < hi) : ∀ {l : List Host.Cell} {lo : Nat},
    lo ≤ a → cellsWf lo hi l = true → cellsWf lo hi (insertCell a v l) = true
  | [], lo, hlo, _ => by
    unfold insertCell
    split <;> simp_all [cellsWf]
  | (c, u) :: rest, lo, hlo, h => by
    have h' := h
    simp only [cellsWf, Bool.and_eq_true, decide_eq_true_eq] at h
    unfold insertCell
    split
    · rename_i hac
      split
      · exact h'
      · rename_i hv
        simp only [cellsWf, Bool.and_eq_true, decide_eq_true_eq]
        exact ⟨⟨⟨hlo, ha⟩, hv⟩, ⟨⟨by omega, h.1.1.2⟩, h.1.2⟩, h.2⟩
    · split
      · rename_i hac
        split
        · exact cellsWf_mono (by omega) h.2
        · rename_i hv
          simp only [cellsWf, Bool.and_eq_true, decide_eq_true_eq]
          exact ⟨⟨⟨hlo, ha⟩, hv⟩, by subst hac; exact h.2⟩
      · rename_i hac hne
        simp only [cellsWf, Bool.and_eq_true, decide_eq_true_eq]
        exact ⟨h.1, cellsWf_insertCell ha (by omega) h.2⟩

/-- A memory in canonical form reads the byte just written (R43). -/
theorem Memory.read_write_self {m : Memory} {aw a : Nat} {v : Byte} (h : m.wf aw = true) :
    (m.write a v).read a = v :=
  lookupCell_insertCell_self h

/-- A write leaves every other element alone (R43, R53). -/
theorem Memory.read_write_other {m : Memory} {a b : Nat} {v : Byte} (h : b ≠ a) :
    (m.write a v).read b = m.read b :=
  lookupCell_insertCell_other h m.cells

/-- A write inside the address space keeps the canonical form. -/
theorem Memory.write_wf {m : Memory} {aw a : Nat} {v : Byte} (ha : a < 2 ^ aw) (h : m.wf aw = true) :
    (m.write a v).wf aw = true :=
  cellsWf_insertCell ha (Nat.zero_le a) h

/-- Reset memory is in canonical form. -/
theorem reset_mem_wf : State.reset.mem.wf State.reset.params.aw = true := rfl

end Sys2Proof.Machine
end

