-- ==== Sys2Proof/Laws/Buffers.lean ====
section
/-! SUPPORT. The two buffer loops in closed form: a loop is `n` runs of its body and a delivery, whatever
the runs answer, and the runs answer a state exactly where every access is allowed. -/

namespace Sys2Proof.Machine

open Sys2Proof.Safety

/-- Run `body` at the indices `i`, `i + 1`, … , `c` times, stopping where it stops. -/
def runs (body : Nat → State → Res State) : Nat → Nat → State → Res State
  | _, 0, s => .next s
  | i, c + 1, s => andThen (body i s) (runs body (i + 1) c)

/-- Change a memory at the indices `i`, `i + 1`, … , `c` times. -/
def changes (change : Nat → Memory → Memory) : Nat → Nat → Memory → Memory
  | _, 0, m => m
  | i, c + 1, m => changes change (i + 1) c (change i m)

/-- The last change comes last. -/
theorem changes_succ (change : Nat → Memory → Memory) : ∀ (c i : Nat) (m : Memory),
    changes change i (c + 1) m = change (i + c) (changes change i c m)
  | 0, _, _ => rfl
  | c + 1, i, m => by
    rw [changes, changes_succ change c (i + 1) (change i m), changes]
    congr 1
    omega

/-- If one run answers where `ok` holds and then changes the memory alone, so do many runs. -/
theorem runs_eq_next {body : Nat → State → Res State} {change : Nat → Memory → Memory} {ok : Nat → Prop}
    (s : State)
    (hb : ∀ k m t, body k { s with mem := m } = .next t ↔ ok k ∧ t = { s with mem := change k m }) :
    ∀ (c i : Nat) (m : Memory) (t : State), runs body i c { s with mem := m } = .next t ↔
      (∀ k, i ≤ k → k < i + c → ok k) ∧ t = { s with mem := changes change i c m }
  | 0, i, m, t => by
    simp only [runs, Host.Outcome.next.injEq, changes, eq_comm (a := t)]
    exact ⟨fun h => ⟨fun k h1 h2 => absurd h2 (by omega), h⟩, fun h => h.2⟩
  | c + 1, i, m, t => by
    simp only [runs, andThen_eq_next, hb]
    constructor
    · rintro ⟨x, ⟨hi, rfl⟩, hx⟩
      obtain ⟨hk, rfl⟩ := (runs_eq_next s hb c (i + 1) _ t).mp hx
      refine ⟨fun k h1 h2 => ?_, rfl⟩
      rcases Nat.eq_or_lt_of_le h1 with rfl | h1
      · exact hi
      · exact hk k h1 (by omega)
    · rintro ⟨hk, rfl⟩
      exact ⟨_, ⟨hk i le_rfl (by omega), rfl⟩,
        (runs_eq_next s hb c (i + 1) _ _).mpr ⟨fun k h1 h2 => hk k (by omega) (by omega), rfl⟩⟩

/-- If one run only makes accesses and changes the memory alone, so do many runs: they end as accesses end. -/
theorem runs_ends {body : Nat → State → Res State} (s : State)
    (hb : ∀ k m, AccessEnds s (body k { s with mem := m })
      ∧ ∀ t, body k { s with mem := m } = .next t → ∃ m', t = { s with mem := m' }) :
    ∀ (c i : Nat) (m : Memory), AccessEnds s (runs body i c { s with mem := m })
  | 0, _, _ => trivial
  | c + 1, i, m => (hb i m).1.chain fun x hx => by
    obtain ⟨m', rfl⟩ := (hb i m).2 x hx
    exact runs_ends s hb c (i + 1) m'

/-- The loop condition holds exactly before the first `n` iterations (R133, R153). -/
theorem loopTest_eq_true {i blen hlen : Nat} :
    loopTest i blen (2 * i) hlen = true ↔ i < min blen (hlen / 2) := by
  simp only [loopTest, Bool.and_eq_true, decide_eq_true_eq]
  omega

section Encode

/-- What one iteration of `encode_buffer` does to the memory (R131). -/
def encodeChange (dst src k : Nat) (m : Memory) : Memory :=
  (m.write (dst + 2 * k) (highChar (m.read (src + k)))).write (dst + 2 * k + 1) (lowChar (m.read (src + k)))

/-- One iteration of `encode_buffer` answers exactly where its three accesses are allowed. -/
theorem encodeBody_eq_next {dst src k : Nat} {s t : State} : encodeBody dst src k (2 * k) s = .next t ↔
    (mayAccess s .read (src + k) = true ∧ mayAccess s .write (dst + 2 * k) = true
      ∧ mayAccess s .write (dst + 2 * k + 1) = true)
      ∧ t = { s with mem := encodeChange dst src k s.mem } := by
  simp only [encodeBody, andThen_eq_next, load_eq_next, store_eq_next]
  constructor
  · rintro ⟨b, ⟨hr, rfl⟩, x, ⟨h1, rfl⟩, h2, rfl⟩
    exact ⟨⟨hr, h1, h2⟩, rfl⟩
  · rintro ⟨⟨hr, h1, h2⟩, rfl⟩
    exact ⟨_, ⟨hr, rfl⟩, _, ⟨h1, rfl⟩, h2, rfl⟩

/-- The loop of `encode_buffer` is `n` iterations and the delivery of `2n` (R133). -/
theorem encodeLoop_eq_runs (dst hlen src blen : Nat) : ∀ (fuel i : Nat) (s : State), fuel + i = blen →
    i ≤ min blen (hlen / 2) →
    encodeLoop dst hlen src blen fuel i (2 * i) s
      = andThen (runs (fun k => encodeBody dst src k (2 * k)) i (min blen (hlen / 2) - i) s) fun t =>
          .next (t.deliver (2 * min blen (hlen / 2)))
  | 0, i, s, hf, hi => by
    have h : i = min blen (hlen / 2) := by omega
    rw [← h, Nat.sub_self]
    rfl
  | fuel + 1, i, s, hf, hi => by
    rw [encodeLoop]
    by_cases ht : i < min blen (hlen / 2)
    · rw [if_pos (loopTest_eq_true.mpr ht)]
      obtain ⟨c, hc⟩ : ∃ c, min blen (hlen / 2) - i = c + 1 := ⟨min blen (hlen / 2) - i - 1, by omega⟩
      have hc' : min blen (hlen / 2) - (i + 1) = c := by omega
      rw [hc, runs, andThen_assoc]
      congr 1
      funext s'
      have := encodeLoop_eq_runs dst hlen src blen fuel (i + 1) s' (by omega) ht
      rwa [hc'] at this
    · rw [if_neg fun h => ht (loopTest_eq_true.mp h)]
      have h : i = min blen (hlen / 2) := by omega
      rw [← h, Nat.sub_self]
      rfl

/-- `encode_buffer` is: the acceptance, `n` iterations, the delivery of `2n` (R131, R133). -/
theorem execEncodeBuffer_eq_runs (dst hlen src blen : Nat) (s : State) :
    execEncodeBuffer dst hlen src blen s
      = andThen (s.accept { dir := .encode, dst, dcap := hlen, src, slen := blen }) fun _ =>
          andThen (runs (fun k => encodeBody dst src k (2 * k)) 0 (min blen (hlen / 2)) s) fun t =>
            .next (t.deliver (2 * min blen (hlen / 2))) := by
  unfold execEncodeBuffer
  congr 1
  funext _
  exact encodeLoop_eq_runs dst hlen src blen blen 0 s rfl (Nat.zero_le _)

/-- The iterations of `encode_buffer` leave every element outside what they write (R52). -/
theorem changes_encode_other {dst src a : Nat} {m : Memory} : ∀ n : Nat,
    ¬ (dst ≤ a ∧ a < dst + 2 * n) → (changes (encodeChange dst src) 0 n m).read a = m.read a
  | 0, _ => rfl
  | n + 1, ha => by
    rw [changes_succ, encodeChange, Memory.read_write_other (by omega), Memory.read_write_other (by omega)]
    exact changes_encode_other n (by omega)

/-- The iterations of `encode_buffer` keep the canonical form, if their writes lie in the address space. -/
theorem changes_encode_wf {dst src aw : Nat} {m : Memory} (hm : m.wf aw = true) : ∀ n : Nat,
    (∀ k < n, dst + 2 * k + 1 < 2 ^ aw) → (changes (encodeChange dst src) 0 n m).wf aw = true
  | 0, _ => hm
  | n + 1, h => by
    have hn := h n (by omega)
    rw [changes_succ]
    exact Memory.write_wf (by omega) (Memory.write_wf (by omega)
      (changes_encode_wf hm n fun k hk => h k (by omega)))

/-- What the iterations of `encode_buffer` write (R134), if they write nothing that they read (R56). -/
theorem changes_encode_data {dst src aw : Nat} {m : Memory} (hm : m.wf aw = true) : ∀ n : Nat,
    (∀ k < n, dst + 2 * k + 1 < 2 ^ aw) →
    (∀ k < n, ¬ (dst ≤ src + k ∧ src + k < dst + 2 * n)) → ∀ k < n,
    (changes (encodeChange dst src) 0 n m).read (dst + 2 * k) = highChar (m.read (src + k)) ∧
    (changes (encodeChange dst src) 0 n m).read (dst + 2 * k + 1) = lowChar (m.read (src + k))
  | 0, _, _, k, hk => absurd hk (by omega)
  | n + 1, h, hd, k, hk => by
    have hn := h n (by omega)
    have hdn := hd n (by omega)
    have hw := changes_encode_wf (src := src) hm n fun k hk => h k (by omega)
    have hsrc : (changes (encodeChange dst src) 0 n m).read (src + n) = m.read (src + n) :=
      changes_encode_other n (by omega)
    rw [changes_succ, Nat.zero_add, encodeChange, hsrc]
    rcases Nat.lt_succ_iff_lt_or_eq.mp hk with hk | rfl
    · rw [Memory.read_write_other (by omega), Memory.read_write_other (by omega),
        Memory.read_write_other (by omega), Memory.read_write_other (by omega)]
      exact changes_encode_data hm n (fun k hk => h k (by omega))
        (fun j hj => by have := hd j (by omega); omega) k hk
    · rw [Memory.read_write_other (by omega), Memory.read_write_self hw,
        Memory.read_write_self (Memory.write_wf (by omega) hw)]
      exact ⟨rfl, rfl⟩

/-- What a ready `encode_buffer` gives the data lemmas: its writes lie in the space, and not on its reads. -/
theorem ready_encode {s : State} {dst hlen src blen : Nat}
    (h : Ready s { dir := .encode, dst, dcap := hlen, src, slen := blen }) :
    (∀ k < min blen (hlen / 2), dst + 2 * k + 1 < 2 ^ s.params.aw) ∧
    (∀ k < min blen (hlen / 2), ¬ (dst ≤ src + k ∧ src + k < dst + 2 * min blen (hlen / 2))) := by
  obtain ⟨⟨⟨_, _, hm⟩, _⟩, _, hw⟩ := h
  simp only [Job.readSpan, Job.writeSpan, Job.iterations, Job.blen, Job.hlen, Span.Meets] at hm hw
  exact ⟨fun k hk => mayAccess_lt (hw (2 * k + 1) (by omega)), fun k hk hc => by omega⟩

/-- `encode_buffer` answers a state exactly where it is ready, and which (R131, R133). -/
theorem execEncodeBuffer_eq_next {dst hlen src blen : Nat} {s t : State} :
    execEncodeBuffer dst hlen src blen s = .next t ↔
      Ready s { dir := .encode, dst, dcap := hlen, src, slen := blen } ∧
      t = completed s (changes (encodeChange dst src) 0 (min blen (hlen / 2)) s.mem)
        (2 * min blen (hlen / 2)) := by
  rw [execEncodeBuffer_eq_runs]
  simp only [andThen_eq_next]
  have hr := fun t => runs_eq_next (body := fun k => encodeBody dst src k (2 * k))
    (change := encodeChange dst src)
    (ok := fun k => mayAccess s .read (src + k) = true ∧ mayAccess s .write (dst + 2 * k) = true
      ∧ mayAccess s .write (dst + 2 * k + 1) = true) s
    (fun k m t => encodeBody_eq_next (s := { s with mem := m })) (min blen (hlen / 2)) 0 s.mem t
  constructor
  · rintro ⟨_, ha, x, hx, ht⟩
    obtain ⟨hk, rfl⟩ := (hr x).mp hx
    refine ⟨⟨accept_eq_next.mp ha, fun k hlt => (hk k (Nat.zero_le _) ?_).1, fun k hlt => ?_⟩, ?_⟩
    · rw [Nat.zero_add]
      exact hlt
    · have hlt' : k / 2 < min blen (hlen / 2) := by
        have : k < 2 * min blen (hlen / 2) := hlt
        omega
      have h := hk (k / 2) (Nat.zero_le _) (by omega)
      rcases Nat.mod_two_eq_zero_or_one k with hp | hp
      · have : dst + 2 * (k / 2) = dst + k := by omega
        exact this ▸ h.2.1
      · have : dst + 2 * (k / 2) + 1 = dst + k := by omega
        exact this ▸ h.2.2
    · exact (Host.Outcome.next.inj ht).symm
  · rintro ⟨⟨hp, hrd, hwr⟩, rfl⟩
    refine ⟨(), accept_eq_next.mpr hp, _, (hr _).mpr ⟨fun k _ hk => ?_, rfl⟩, rfl⟩
    have hk' : k < min blen (hlen / 2) := by omega
    refine ⟨hrd k hk', hwr (2 * k) ?_, hwr (2 * k + 1) ?_⟩
    · change 2 * k < 2 * min blen (hlen / 2)
      omega
    · change 2 * k + 1 < 2 * min blen (hlen / 2)
      omega

end Encode

section Decode

/-- What one iteration of `decode_buffer` does to the memory (R151). -/
def decodeChange (dst src k : Nat) (m : Memory) : Memory :=
  m.write (dst + k) (pairByte (m.read (src + 2 * k)) (m.read (src + 2 * k + 1)))

/-- One iteration of `decode_buffer` answers exactly where its three accesses are allowed. -/
theorem decodeBody_eq_next {dst src k : Nat} {s t : State} : decodeBody dst src k (2 * k) s = .next t ↔
    (mayAccess s .read (src + 2 * k) = true ∧ mayAccess s .read (src + 2 * k + 1) = true
      ∧ mayAccess s .write (dst + k) = true)
      ∧ t = { s with mem := decodeChange dst src k s.mem } := by
  simp only [decodeBody, andThen_eq_next, load_eq_next, store_eq_next]
  constructor
  · rintro ⟨b, ⟨hr, rfl⟩, c, ⟨h1, rfl⟩, h2, rfl⟩
    exact ⟨⟨hr, h1, h2⟩, rfl⟩
  · rintro ⟨⟨hr, h1, h2⟩, rfl⟩
    exact ⟨_, ⟨hr, rfl⟩, _, ⟨h1, rfl⟩, h2, rfl⟩

/-- The loop of `decode_buffer` is `n` iterations and the delivery of `n` (R153). -/
theorem decodeLoop_eq_runs (dst blen src hlen : Nat) : ∀ (fuel i : Nat) (s : State), fuel + i = blen →
    i ≤ min blen (hlen / 2) →
    decodeLoop dst blen src hlen fuel i (2 * i) s
      = andThen (runs (fun k => decodeBody dst src k (2 * k)) i (min blen (hlen / 2) - i) s) fun t =>
          .next (t.deliver (min blen (hlen / 2)))
  | 0, i, s, hf, hi => by
    have h : i = min blen (hlen / 2) := by omega
    rw [← h, Nat.sub_self]
    rfl
  | fuel + 1, i, s, hf, hi => by
    rw [decodeLoop]
    by_cases ht : i < min blen (hlen / 2)
    · rw [if_pos (loopTest_eq_true.mpr ht)]
      obtain ⟨c, hc⟩ : ∃ c, min blen (hlen / 2) - i = c + 1 := ⟨min blen (hlen / 2) - i - 1, by omega⟩
      have hc' : min blen (hlen / 2) - (i + 1) = c := by omega
      rw [hc, runs, andThen_assoc]
      congr 1
      funext s'
      have := decodeLoop_eq_runs dst blen src hlen fuel (i + 1) s' (by omega) ht
      rwa [hc'] at this
    · rw [if_neg fun h => ht (loopTest_eq_true.mp h)]
      have h : i = min blen (hlen / 2) := by omega
      rw [← h, Nat.sub_self]
      rfl

/-- `decode_buffer` is: the acceptance, `n` iterations, the delivery of `n` (R151, R153). -/
theorem execDecodeBuffer_eq_runs (dst blen src hlen : Nat) (s : State) :
    execDecodeBuffer dst blen src hlen s
      = andThen (s.accept { dir := .decode, dst, dcap := blen, src, slen := hlen }) fun _ =>
          andThen (runs (fun k => decodeBody dst src k (2 * k)) 0 (min blen (hlen / 2)) s) fun t =>
            .next (t.deliver (min blen (hlen / 2))) := by
  unfold execDecodeBuffer
  congr 1
  funext _
  exact decodeLoop_eq_runs dst blen src hlen blen 0 s rfl (Nat.zero_le _)

/-- The iterations of `decode_buffer` leave every element outside what they write (R52). -/
theorem changes_decode_other {dst src a : Nat} {m : Memory} : ∀ n : Nat,
    ¬ (dst ≤ a ∧ a < dst + n) → (changes (decodeChange dst src) 0 n m).read a = m.read a
  | 0, _ => rfl
  | n + 1, ha => by
    rw [changes_succ, decodeChange, Memory.read_write_other (by omega)]
    exact changes_decode_other n (by omega)

/-- The iterations of `decode_buffer` keep the canonical form, if their writes lie in the address space. -/
theorem changes_decode_wf {dst src aw : Nat} {m : Memory} (hm : m.wf aw = true) : ∀ n : Nat,
    (∀ k < n, dst + k < 2 ^ aw) → (changes (decodeChange dst src) 0 n m).wf aw = true
  | 0, _ => hm
  | n + 1, h => by
    have hn := h n (by omega)
    rw [changes_succ]
    exact Memory.write_wf (by omega) (changes_decode_wf hm n fun k hk => h k (by omega))

/-- What the iterations of `decode_buffer` write (R154, R156), if they write nothing that they read (R56). -/
theorem changes_decode_data {dst src aw : Nat} {m : Memory} (hm : m.wf aw = true) : ∀ n : Nat,
    (∀ k < n, dst + k < 2 ^ aw) →
    (∀ k < 2 * n, ¬ (dst ≤ src + k ∧ src + k < dst + n)) → ∀ k < n,
    (changes (decodeChange dst src) 0 n m).read (dst + k)
      = pairByte (m.read (src + 2 * k)) (m.read (src + 2 * k + 1))
  | 0, _, _, k, hk => absurd hk (by omega)
  | n + 1, h, hd, k, hk => by
    have hn := h n (by omega)
    have hd0 := hd (2 * n) (by omega)
    have hd1 := hd (2 * n + 1) (by omega)
    have hw := changes_decode_wf (src := src) hm n fun k hk => h k (by omega)
    rw [changes_succ, Nat.zero_add, decodeChange,
      changes_decode_other (a := src + 2 * n) n (by omega),
      changes_decode_other (a := src + 2 * n + 1) n (by omega)]
    rcases Nat.lt_succ_iff_lt_or_eq.mp hk with hk | rfl
    · rw [Memory.read_write_other (by omega)]
      exact changes_decode_data hm n (fun k hk => h k (by omega))
        (fun j hj => by have := hd j (by omega); omega) k hk
    · exact Memory.read_write_self hw

/-- What a ready `decode_buffer` gives the data lemmas: its writes lie in the space, and not on its reads. -/
theorem ready_decode {s : State} {dst blen src hlen : Nat}
    (h : Ready s { dir := .decode, dst, dcap := blen, src, slen := hlen }) :
    (∀ k < min blen (hlen / 2), dst + k < 2 ^ s.params.aw) ∧
    (∀ k < 2 * min blen (hlen / 2), ¬ (dst ≤ src + k ∧ src + k < dst + min blen (hlen / 2))) := by
  obtain ⟨⟨⟨_, _, hm⟩, _⟩, _, hw⟩ := h
  simp only [Job.readSpan, Job.writeSpan, Job.iterations, Job.blen, Job.hlen, Span.Meets] at hm hw
  exact ⟨fun k hk => mayAccess_lt (hw k hk), fun k hk hc => by omega⟩

/-- `decode_buffer` answers a state exactly where it is ready, and which (R151, R153). -/
theorem execDecodeBuffer_eq_next {dst blen src hlen : Nat} {s t : State} :
    execDecodeBuffer dst blen src hlen s = .next t ↔
      Ready s { dir := .decode, dst, dcap := blen, src, slen := hlen } ∧
      t = completed s (changes (decodeChange dst src) 0 (min blen (hlen / 2)) s.mem)
        (min blen (hlen / 2)) := by
  rw [execDecodeBuffer_eq_runs]
  simp only [andThen_eq_next]
  have hr := fun t => runs_eq_next (body := fun k => decodeBody dst src k (2 * k))
    (change := decodeChange dst src)
    (ok := fun k => mayAccess s .read (src + 2 * k) = true ∧ mayAccess s .read (src + 2 * k + 1) = true
      ∧ mayAccess s .write (dst + k) = true) s
    (fun k m t => decodeBody_eq_next (s := { s with mem := m })) (min blen (hlen / 2)) 0 s.mem t
  constructor
  · rintro ⟨_, ha, x, hx, ht⟩
    obtain ⟨hk, rfl⟩ := (hr x).mp hx
    refine ⟨⟨accept_eq_next.mp ha, fun k hlt => ?_, fun k hlt => (hk k (Nat.zero_le _) ?_).2.2⟩, ?_⟩
    · have hlt' : k / 2 < min blen (hlen / 2) := by
        have : k < 2 * min blen (hlen / 2) := hlt
        omega
      have h := hk (k / 2) (Nat.zero_le _) (by omega)
      rcases Nat.mod_two_eq_zero_or_one k with hp | hp
      · have : src + 2 * (k / 2) = src + k := by omega
        exact this ▸ h.1
      · have : src + 2 * (k / 2) + 1 = src + k := by omega
        exact this ▸ h.2.1
    · rw [Nat.zero_add]
      exact hlt
    · exact (Host.Outcome.next.inj ht).symm
  · rintro ⟨⟨hp, hrd, hwr⟩, rfl⟩
    refine ⟨(), accept_eq_next.mpr hp, _, (hr _).mpr ⟨fun k _ hk => ?_, rfl⟩, rfl⟩
    have hk' : k < min blen (hlen / 2) := by omega
    refine ⟨hrd (2 * k) ?_, hrd (2 * k + 1) ?_, hwr k hk'⟩
    · change 2 * k < 2 * min blen (hlen / 2)
      omega
    · change 2 * k + 1 < 2 * min blen (hlen / 2)
      omega

end Decode

section Command

/-- What one iteration of a buffer command does to the memory (R131, R151). -/
def jobChange (job : Job) : Nat → Memory → Memory :=
  match job.dir with
  | .encode => encodeChange job.dst job.src
  | .decode => decodeChange job.dst job.src

/-- What a whole buffer command does to the memory. -/
def jobResult (job : Job) (m : Memory) : Memory := changes (jobChange job) 0 job.iterations m

/-- The response of a buffer command: `2n` characters or `n` bytes (R133, R153). -/
def jobCount (job : Job) : Nat := job.countAt job.iterations (2 * job.iterations)

/-- A buffer command answers a state exactly where it is ready, and which. -/
theorem exec_job_eq_next {i : Instr} {job : Job} (hj : jobOf i = some job) {s t : State} :
    exec i s = .next t ↔ Ready s job ∧ t = completed s (jobResult job s.mem) (jobCount job) := by
  cases i <;> cases hj
  · exact execEncodeBuffer_eq_next
  · exact execDecodeBuffer_eq_next

/-- An address of a span is its base and a number below its count. -/
theorem Span.Has.exists_offset {sp : Span} {a : Nat} (h : sp.Has a) : ∃ k < sp.count, sp.base + k = a :=
  ⟨a - sp.base, by unfold Span.Has at h; omega, by unfold Span.Has at h; omega⟩

/-- Two spans meet exactly where they share an address (R56). -/
theorem Span.meets_iff {x y : Span} : x.Meets y ↔ ∃ a, x.Has a ∧ y.Has a := by
  unfold Span.Meets Span.Has
  constructor
  · intro h
    rcases Nat.le_total x.base y.base with hl | hl
    · exact ⟨y.base, by omega, by omega⟩
    · exact ⟨x.base, by omega, by omega⟩
  · rintro ⟨a, h1, h2⟩
    omega

/-- Where a command is ready, its writes lie inside the address space. -/
theorem ready_write_lt {s : State} {job : Job} (h : Ready s job) {a : Nat} (ha : job.writeSpan.Has a) :
    a < 2 ^ s.params.aw := by
  obtain ⟨k, hk, rfl⟩ := ha.exists_offset
  exact mayAccess_lt (h.2.2 k hk)

/-- A buffer command changes nothing outside its write footprint (R52). -/
theorem jobResult_other {job : Job} {m : Memory} {a : Nat} (h : ¬ job.writeSpan.Has a) :
    (jobResult job m).read a = m.read a := by
  obtain ⟨dir, dst, dcap, src, slen⟩ := job
  cases dir
  · exact changes_encode_other _ h
  · exact changes_decode_other _ h

/-- A buffer command that is ready keeps the canonical form of the memory. -/
theorem jobResult_wf {s : State} {job : Job} (h : Ready s job) (hm : s.mem.wf s.params.aw = true) :
    (jobResult job s.mem).wf s.params.aw = true := by
  have hw := fun a ha => ready_write_lt h (a := a) ha
  obtain ⟨dir, dst, dcap, src, slen⟩ := job
  cases dir
  · refine changes_encode_wf hm _ fun k hk => hw _ ⟨?_, ?_⟩
    · dsimp only [Job.writeSpan]
      omega
    · dsimp only [Job.writeSpan]
      omega
  · refine changes_decode_wf hm _ fun k hk => hw _ ⟨?_, ?_⟩
    · dsimp only [Job.writeSpan]
      omega
    · dsimp only [Job.writeSpan]
      omega

/-- An acceptable buffer command ends as accesses end: it completes, or one of its accesses stops it. -/
theorem exec_job_ends {s : State} {i : Instr} {job : Job} (hj : jobOf i = some job)
    (hp : Acceptable s job) : AccessEnds s (exec i s) := by
  cases i <;> cases hj
  · change AccessEnds s (execEncodeBuffer _ _ _ _ s)
    rw [execEncodeBuffer_eq_runs, accept_eq_next.mpr hp, andThen_next]
    refine AccessEnds.chain (runs_ends s (fun k m => ⟨?_, fun t ht => ⟨_, (encodeBody_eq_next.mp ht).2⟩⟩) _ 0 s.mem)
      fun _ _ => trivial
    refine AccessEnds.chain (load_ends s m _) fun b _ => AccessEnds.chain (store_ends s m _ _) fun x hx => ?_
    obtain ⟨_, rfl⟩ := store_eq_next.mp hx
    exact store_ends s _ _ _
  · change AccessEnds s (execDecodeBuffer _ _ _ _ s)
    rw [execDecodeBuffer_eq_runs, accept_eq_next.mpr hp, andThen_next]
    refine AccessEnds.chain (runs_ends s (fun k m => ⟨?_, fun t ht => ⟨_, (decodeBody_eq_next.mp ht).2⟩⟩) _ 0 s.mem)
      fun _ _ => trivial
    exact AccessEnds.chain (load_ends s m _) fun _ _ => AccessEnds.chain (load_ends s m _) fun _ _ =>
      store_ends s m _ _

/-- A buffer command that is not accepted is refused for the same reason (R42, R53, R56). -/
theorem exec_job_refused {s : State} {i : Instr} {job : Job} (hj : jobOf i = some job) {r : Refusal}
    (h : s.accept job = .refused r) : exec i s = .refused r := by
  cases i <;> cases hj
  · change execEncodeBuffer _ _ _ _ s = _
    rw [execEncodeBuffer, h, andThen_refused]
  · change execDecodeBuffer _ _ _ _ s = _
    rw [execDecodeBuffer, h, andThen_refused]

end Command

end Sys2Proof.Machine
end

