-- ==== Sys2Proof/Laws/Codec.lean ====
section
/-! SUPPORT. Reading one field of a number that is put together from fields. -/

namespace Sys2Proof

/-- A field reads what stands there: below it less than `2^lo`, in it less than `2^width`, above it anything. -/
theorem bitsAt_of_split {w lo width below x above : Nat} (hb : below < 2 ^ lo) (hx : x < 2 ^ width)
    (hw : w = below + 2 ^ lo * (x + 2 ^ width * above)) : bitsAt w lo width = x := by
  rw [bitsAt, hw, Nat.add_mul_div_left _ _ (Nat.two_pow_pos lo), Nat.div_eq_of_lt hb, Nat.zero_add,
    Nat.add_mul_mod_self_left, Nat.mod_eq_of_lt hx]

/-- A field is below `2^width`. -/
theorem bitsAt_lt (w lo width : Nat) : bitsAt w lo width < 2 ^ width := Nat.mod_lt _ (Nat.two_pow_pos width)

/-- `op` is the word modulo 8 (R74: mask 0x7). -/
theorem opField_eq (w : Nat) : opField w = w % 8 := by simp [opField, bitsAt]

/-- A number below a power with one more field on top stays below the next power. -/
theorem add_field_lt {below x lo width : Nat} (hb : below < 2 ^ lo) (hx : x < 2 ^ width) :
    below + x * 2 ^ lo < 2 ^ (lo + width) := by
  have h : (x + 1) * 2 ^ lo ≤ 2 ^ width * 2 ^ lo := Nat.mul_le_mul_right _ hx
  rw [Nat.pow_add, Nat.mul_comm (2 ^ lo)]
  rw [Nat.add_mul, Nat.one_mul] at h
  omega

/-- A word packed from fields that fit is a command word (R71). -/
theorem packWord_lt {p : Params} {op : Nat} {a : Byte} {dst dcap src slen : Nat} (ho : op < 2 ^ 3)
    (hf : p.FieldsFit dst dcap src slen) : packWord p op a dst dcap src slen < 2 ^ p.cw := by
  obtain ⟨h1, h2, h3, h4⟩ := hf
  have e := add_field_lt (add_field_lt (add_field_lt (lo := 11) (add_field_lt ho a.isLt) h1) h2) h3
  rw [show 11 + p.aw + p.lw + p.aw = 11 + 2 * p.aw + p.lw by ring] at e
  rw [show p.cw = 11 + 2 * p.aw + p.lw + p.lw by unfold Params.cw; ring]
  exact add_field_lt e h4

/-- The lowest field of a packed word is the op-code (R71). -/
theorem opField_packWord {p : Params} {op : Nat} {a : Byte} {dst dcap src slen : Nat} (ho : op < 2 ^ 3) :
    opField (packWord p op a dst dcap src slen) = op :=
  bitsAt_of_split (below := 0) (above := a.toNat + dst * 2 ^ 8 + dcap * 2 ^ (8 + p.aw)
      + src * 2 ^ (8 + p.aw + p.lw) + slen * 2 ^ (8 + 2 * p.aw + p.lw))
    (Nat.two_pow_pos 0) ho (by unfold packWord; ring)

/-- Fields of zeros fit. -/
theorem zerosFit (p : Params) : p.FieldsFit 0 0 0 0 :=
  ⟨Nat.two_pow_pos _, Nat.two_pow_pos _, Nat.two_pow_pos _, Nat.two_pow_pos _⟩

end Sys2Proof
end

