-- ==== Sys2Proof/Laws/PerInstr.lean ====
section
/-! SUPPORT. Statements about every instruction as syntax, one lemma per constructor. -/

namespace Sys2Proof.Laws.OpField

/-- The `op` field of an instruction's command word is its op-code (R71, R73). -/
def Statement (i : Instr) : Prop := ∀ p : Params, opField (encode p i) = i.opcode

theorem isHexDigit (c : Byte) : Statement (.isHexDigit c) := fun _ =>
  opField_packWord (op := 0) (by decide)
theorem nibbleToHexChar (v : Byte) : Statement (.nibbleToHexChar v) := fun _ =>
  opField_packWord (op := 1) (by decide)
theorem hexCharToNibble (h : Byte) : Statement (.hexCharToNibble h) := fun _ =>
  opField_packWord (op := 2) (by decide)
theorem encodeBuffer (dst hlen src blen : Nat) : Statement (.encodeBuffer dst hlen src blen) :=
  fun _ => opField_packWord (op := 3) (by decide)
theorem decodeBuffer (dst blen src hlen : Nat) : Statement (.decodeBuffer dst blen src hlen) :=
  fun _ => opField_packWord (op := 4) (by decide)

end Sys2Proof.Laws.OpField

namespace Sys2Proof.Laws.EncodingFits

/-- The encoding of a well-formed instruction is a command word: it fits `CW` bits (R71). -/
def Statement (i : Instr) : Prop := ∀ p : Params, i.WellFormed p → encode p i < 2 ^ p.cw

theorem isHexDigit (c : Byte) : Statement (.isHexDigit c) := fun p _ => packWord_lt (op := 0) (by decide) (zerosFit p)
theorem nibbleToHexChar (v : Byte) : Statement (.nibbleToHexChar v) :=
  fun p _ => packWord_lt (op := 1) (by decide) (zerosFit p)
theorem hexCharToNibble (h : Byte) : Statement (.hexCharToNibble h) :=
  fun p _ => packWord_lt (op := 2) (by decide) (zerosFit p)
theorem encodeBuffer (dst hlen src blen : Nat) : Statement (.encodeBuffer dst hlen src blen) :=
  fun _ h => packWord_lt (op := 3) (by decide) h
theorem decodeBuffer (dst blen src hlen : Nat) : Statement (.decodeBuffer dst blen src hlen) :=
  fun _ h => packWord_lt (op := 4) (by decide) h

end Sys2Proof.Laws.EncodingFits
end

