-- ==== Sys2Proof/Laws/Step.lean ====
section
/-! SUPPORT. Everything a move of a command in flight can do, everything `exec` can do, and everything a step
can do, each said once. -/

namespace Sys2Proof.Machine

open Sys2Proof.Safety

/-- The command in flight at the block that moves is that block's. -/
theorem flight?_eq_some {s : State} {f : Flight} (h : s.flight? = some f) :
    ∃ b, s.blocks[s.active]? = some b ∧ b.flight = some f := by
  simpa [State.flight?, Option.bind_eq_some_iff] using h

/-- Everything the next move of a command in flight can do (R57): deliver the response at the end of the loop,
read and hold what was read, or write and go on. -/
theorem advanceFlight_cases {f : Flight} {s t : State} (h : advanceFlight f s = .next t) :
    (f.phase = .fetch ∧ loopTest f.i f.job.blen f.j f.job.hlen = false ∧ t = s.deliver (f.job.countAt f.i f.j)) ∨
    (f.phase = .fetch ∧ loopTest f.i f.job.blen f.j f.job.hlen = true ∧ f.job.dir = .encode ∧
      t = s.setFlight { f with phase := .highOut (s.mem.read (f.job.src + f.i)) }) ∨
    (f.phase = .fetch ∧ loopTest f.i f.job.blen f.j f.job.hlen = true ∧ f.job.dir = .decode ∧
      t = s.setFlight { f with phase := .lowIn (hexCharToNibble (s.mem.read (f.job.src + f.j))) }) ∨
    (∃ high, f.phase = .lowIn high ∧
      t = s.setFlight { f with phase := .byteOut high (hexCharToNibble (s.mem.read (f.job.src + f.j + 1))) }) ∨
    (∃ b, f.phase = .highOut b ∧ mayAccess s .write (f.job.dst + f.j) = true ∧
      t = ({ s with mem := s.mem.write (f.job.dst + f.j) (highChar b) } : State).setFlight
        { f with phase := .lowOut b }) ∨
    (∃ b, f.phase = .lowOut b ∧ mayAccess s .write (f.job.dst + f.j + 1) = true ∧
      t = ({ s with mem := s.mem.write (f.job.dst + f.j + 1) (lowChar b) } : State).setFlight
        { f with i := f.i + 1, j := f.j + 2, phase := .fetch }) ∨
    (∃ high low, f.phase = .byteOut high low ∧ mayAccess s .write (f.job.dst + f.i) = true ∧
      t = ({ s with mem := s.mem.write (f.job.dst + f.i) (packNibbles high low) } : State).setFlight
        { f with i := f.i + 1, j := f.j + 2, phase := .fetch }) := by
  unfold advanceFlight at h
  cases hp : f.phase with
  | fetch =>
    rw [hp] at h
    cases hl : loopTest f.i f.job.blen f.j f.job.hlen
    · simp only [hl, Bool.false_eq_true, if_false, Host.Outcome.next.injEq] at h
      exact .inl ⟨rfl, rfl, h.symm⟩
    · cases hd : f.job.dir
      · simp only [hl, if_true, hd, andThen_eq_next, load_eq_next] at h
        obtain ⟨_, ⟨_, rfl⟩, h⟩ := h
        exact .inr (.inl ⟨rfl, rfl, rfl, (Host.Outcome.next.inj h).symm⟩)
      · simp only [hl, if_true, hd, andThen_eq_next, load_eq_next] at h
        obtain ⟨_, ⟨_, rfl⟩, h⟩ := h
        exact .inr (.inr (.inl ⟨rfl, rfl, rfl, (Host.Outcome.next.inj h).symm⟩))
  | lowIn high =>
    simp only [hp, andThen_eq_next, load_eq_next] at h
    obtain ⟨_, ⟨_, rfl⟩, h⟩ := h
    exact .inr (.inr (.inr (.inl ⟨high, rfl, (Host.Outcome.next.inj h).symm⟩)))
  | highOut b =>
    simp only [hp, andThen_eq_next, store_eq_next] at h
    obtain ⟨_, ⟨ha, rfl⟩, h⟩ := h
    exact .inr (.inr (.inr (.inr (.inl ⟨b, rfl, ha, (Host.Outcome.next.inj h).symm⟩))))
  | lowOut b =>
    simp only [hp, andThen_eq_next, store_eq_next] at h
    obtain ⟨_, ⟨ha, rfl⟩, h⟩ := h
    exact .inr (.inr (.inr (.inr (.inr (.inl ⟨b, rfl, ha, (Host.Outcome.next.inj h).symm⟩)))))
  | byteOut high low =>
    simp only [hp, andThen_eq_next, store_eq_next] at h
    obtain ⟨_, ⟨ha, rfl⟩, h⟩ := h
    exact .inr (.inr (.inr (.inr (.inr (.inr ⟨high, low, rfl, ha, (Host.Outcome.next.inj h).symm⟩)))))

/-- Everything `exec` can do when it answers a state: a primitive operation delivers a value below 256, a
buffer command that is ready does its iterations and delivers its count. -/
theorem exec_cases {i : Instr} {s t : State} (h : exec i s = .next t) :
    (jobOf i = none ∧ ∃ v < 256, t = completed s s.mem v) ∨
    ∃ job, jobOf i = some job ∧ Ready s job ∧ t = completed s (jobResult job s.mem) (jobCount job) := by
  cases i with
  | isHexDigit c =>
    exact .inl ⟨rfl, _, Nat.lt_of_lt_of_le (Bool.toNat_lt _) (by decide), (Host.Outcome.next.inj h).symm⟩
  | nibbleToHexChar v => exact .inl ⟨rfl, _, (nibbleToHexChar v).isLt, (Host.Outcome.next.inj h).symm⟩
  | hexCharToNibble c =>
    exact .inl ⟨rfl, _, Nat.lt_of_lt_of_le (hexCharToNibble c).isLt (by decide), (Host.Outcome.next.inj h).symm⟩
  | encodeBuffer dst hlen src blen => exact .inr ⟨_, rfl, (exec_job_eq_next rfl).mp h⟩
  | decodeBuffer dst blen src hlen => exact .inr ⟨_, rfl, (exec_job_eq_next rfl).mp h⟩

/-- Everything `begin` can do when it answers a state: what `exec` does, or the acceptance of a buffer
command. -/
theorem begin_cases {i : Instr} {s t : State} (h : begin i s = .next t) :
    (jobOf i = none ∧ exec i s = .next t) ∨
    ∃ job, jobOf i = some job ∧ Acceptable s job ∧ t = s.launch job := by
  unfold begin at h
  cases hj : jobOf i with
  | none => rw [hj] at h; exact .inl ⟨rfl, h⟩
  | some job =>
    rw [hj] at h
    obtain ⟨_, ha, ht⟩ := andThen_eq_next.mp h
    exact .inr ⟨job, rfl, accept_eq_next.mp ha, (Host.Outcome.next.inj ht).symm⟩

/-- What a move or a command leaves alone: the inbox, the widths, what the memory admits, which block moves, how
many blocks there are, and every other block (R32). -/
def LeavesOthers (s t : State) : Prop :=
  t.inbox = s.inbox ∧ t.params = s.params ∧ t.regions = s.regions ∧ t.active = s.active ∧
    t.blocks.length = s.blocks.length ∧ ∀ j : Nat, j ≠ s.active → t.blocks[j]? = s.blocks[j]?

/-- An update of memory and of the block that moves leaves the rest alone. -/
theorem onActive_leavesOthers (s : State) (m : Memory) (f : Block → Block) :
    LeavesOthers s (({ s with mem := m } : State).onActive f) :=
  ⟨rfl, rfl, rfl, rfl, by simp, fun j hj => by simp [Ne.symm hj]⟩

/-- A move of the block that moves leaves the rest alone. -/
theorem advance_leavesOthers {s t : State} (h : advance s = .next t) : LeavesOthers s t := by
  unfold advance at h
  cases hf : s.flight? with
  | none =>
    rw [hf] at h
    cases h
    exact ⟨rfl, rfl, rfl, rfl, rfl, fun _ _ => rfl⟩
  | some f =>
    rw [hf] at h
    rcases advanceFlight_cases h with ⟨_, _, rfl⟩ | ⟨_, _, _, rfl⟩ | ⟨_, _, _, rfl⟩ | ⟨_, _, rfl⟩ | ⟨_, _, _, rfl⟩ |
      ⟨_, _, _, rfl⟩ | ⟨_, _, _, _, rfl⟩ <;> exact onActive_leavesOthers s _ _

/-- A completed instruction leaves the rest alone. -/
theorem exec_leavesOthers {i : Instr} {s t : State} (h : exec i s = .next t) : LeavesOthers s t := by
  rcases exec_cases h with ⟨_, v, _, rfl⟩ | ⟨job, _, _, rfl⟩ <;> exact onActive_leavesOthers s _ _

/-- Accepting a word answers a state only through the instruction it decodes to. -/
theorem withDecoded_eq_next {w : Nat} {s t : State} {run : Instr → State → Res State} :
    withDecoded w s run = .next t ↔ ∃ i, decode s.params w = .ok i ∧ run i s = .next t := by
  unfold withDecoded
  cases hd : decode s.params w with
  | ok i => simp
  | error e => cases e <;> simp

/-- Everything a command word at a port can do: a busy block makes its next move, an idle one runs the
decoded instruction (R79). -/
theorem offerCommand_cases {k w : Nat} {rest : List Event} {s t : State} {run : Instr → State → Res State}
    (h : offerCommand k w rest s run = .next t) : k < s.blocks.length ∧
      ((s.busy k = true ∧ advance (s.turnOf k) = .next t) ∨
       (s.busy k = false ∧ ∃ i, decode s.params w = .ok i ∧ run i (s.taken k rest) = .next t)) := by
  unfold offerCommand at h
  split at h
  · cases h
  · rename_i hk
    refine ⟨by omega, ?_⟩
    split at h
    · rename_i hb
      exact .inl ⟨hb, h⟩
    · rename_i hb
      exact .inr ⟨by simpa using hb, withDecoded_eq_next.mp h⟩

/-- A caller's access that goes on is to an address of the space and races with nothing (R40, R58). -/
theorem callerAccess_eq_next {s : State} {kind : AccessKind} {a : Nat} (h : s.callerAccess kind a = .next ()) :
    a < 2 ^ s.params.aw ∧ s.raced none kind a = false := by
  unfold State.callerAccess at h
  split at h
  · cases h
  · rename_i ha
    split at h
    · cases h
    · rename_i hr
      exact ⟨by omega, by simpa using hr⟩

/-- The step gives block `k` a turn and leaves `rest` in the inbox: a tick of it is taken, or nothing is, because the
inbox is empty or starts with a word for `k`. -/
def GivesTurn (s : State) (k : Nat) (rest : List Event) : Prop :=
  s.inbox = .tick k :: rest ∨
    s.inbox = rest ∧ (rest = [] ∨ ∃ w tail, rest = .command k w :: tail ∨ rest = .start k w :: tail)

/-- Everything a step can do when it answers a state. -/
theorem step_cases {s t : State} (h : step s = .next t) :
    (s.inbox = [] ∧ t = s) ∨
    (∃ k rest, k < s.blocks.length ∧ GivesTurn s k rest ∧ advance (s.taken k rest) = .next t) ∨
    (∃ k w rest i, s.inbox = .command k w :: rest ∧ k < s.blocks.length ∧ s.busy k = false ∧
      decode s.params w = .ok i ∧ exec i (s.taken k rest) = .next t) ∨
    (∃ k w rest i, s.inbox = .start k w :: rest ∧ k < s.blocks.length ∧ s.busy k = false ∧
      decode s.params w = .ok i ∧ begin i (s.taken k rest) = .next t) ∨
    (∃ a rest, s.inbox = .callerRead a :: rest ∧ t = { s with inbox := rest }) ∨
    (∃ a v rest, s.inbox = .callerWrite a v :: rest ∧ a < 2 ^ s.params.aw ∧ s.raced none .write a = false ∧
      t = { s with mem := s.mem.write a v, inbox := rest }) ∨
    (∃ k rest, s.inbox = .reset k :: rest ∧ k < s.blocks.length ∧ s.busy k = false ∧
      t = { s with blocks := s.blocks.set k Block.idle, inbox := rest }) := by
  unfold step stepEvent at h
  cases hi : s.inbox with
  | nil =>
    rw [hi] at h
    simp only [stepQuiet] at h
    split at h
    · exact .inl ⟨rfl, (Host.Outcome.next.inj h).symm⟩
    · rename_i k hk
      refine .inr (.inl ⟨k, [], (List.findIdx?_eq_some_iff_getElem.mp hk).1, .inr ⟨hi, .inl rfl⟩, ?_⟩)
      rwa [show s.turnOf k = s.taken k [] by rw [State.taken, ← hi]; rfl] at h
  | cons e rest =>
    rw [hi] at h
    cases e with
    | command k w =>
      obtain ⟨hk, ⟨_, ha⟩ | ⟨hb, i, hd, hx⟩⟩ := offerCommand_cases h
      · refine .inr (.inl ⟨k, _, hk, .inr ⟨hi, .inr ⟨w, rest, .inl rfl⟩⟩, ?_⟩)
        rwa [show s.turnOf k = s.taken k (.command k w :: rest) by rw [State.taken, ← hi]; rfl] at ha
      · exact .inr (.inr (.inl ⟨k, w, rest, i, rfl, hk, hb, hd, hx⟩))
    | start k w =>
      obtain ⟨hk, ⟨_, ha⟩ | ⟨hb, i, hd, hx⟩⟩ := offerCommand_cases h
      · refine .inr (.inl ⟨k, _, hk, .inr ⟨hi, .inr ⟨w, rest, .inr rfl⟩⟩, ?_⟩)
        rwa [show s.turnOf k = s.taken k (.start k w :: rest) by rw [State.taken, ← hi]; rfl] at ha
      · exact .inr (.inr (.inr (.inl ⟨k, w, rest, i, rfl, hk, hb, hd, hx⟩)))
    | tick k =>
      simp only [tickBlock] at h
      split at h
      · cases h
      · exact .inr (.inl ⟨k, rest, by omega, .inl hi, h⟩)
    | callerRead a =>
      obtain ⟨_, _, ht⟩ := andThen_eq_next.mp h
      exact .inr (.inr (.inr (.inr (.inl ⟨a, rest, rfl, (Host.Outcome.next.inj ht).symm⟩))))
    | callerWrite a v =>
      obtain ⟨_, ha, ht⟩ := andThen_eq_next.mp h
      obtain ⟨hlt, hr⟩ := callerAccess_eq_next ha
      exact .inr (.inr (.inr (.inr (.inr (.inl ⟨a, v, rest, rfl, hlt, hr, (Host.Outcome.next.inj ht).symm⟩)))))
    | reset k =>
      simp only [resetBlock] at h
      split at h
      · cases h
      · split at h
        · cases h
        · rename_i hk hb
          exact .inr (.inr (.inr (.inr (.inr (.inr ⟨k, rest, rfl, by omega, by simpa using hb,
            (Host.Outcome.next.inj h).symm⟩)))))

end Sys2Proof.Machine
end

