-- ==== Sys2Proof/Laws/Units.lean ====
section
/-! SUPPORT. The three primitive units against the spec's tables, over all 256 characters. -/

namespace Sys2Proof.Machine

open Sys2Proof.Safety

/-- A property of bytes holds if it holds of every pair of nibbles (a finite check of 256 cases). -/
theorem forall_byte {P : Byte → Prop} (h : ∀ x y : Fin 16, P (BitVec.ofNat 8 (16 * x.val + y.val))) (b : Byte) :
    P b := by
  have hlt := b.isLt
  have := h ⟨b.toNat / 16, by omega⟩ ⟨b.toNat % 16, by omega⟩
  simpa [Nat.div_add_mod] using this

/-- The classifier accepts exactly the three ranges (R100, R104). -/
theorem isHexDigit_iff (c : Byte) : isHexDigit c = true ↔ IsHexCode c := by
  revert c
  exact forall_byte (by decide)

/-- The nibble encoder in closed form (R112). -/
theorem nibbleToHexChar_toNat (v : Byte) : (nibbleToHexChar v).toNat = lowerDigit (v.toNat % 16) := by
  revert v
  exact forall_byte (by decide)

/-- The decoder's value on a hex digit (R120). -/
theorem hexCharToNibble_of_hex {h : Byte} (hh : IsHexCode h) : (hexCharToNibble h).toNat = digitValue h := by
  have key : ∀ h : Byte, IsHexCode h →
      (BitVec.ofNat 4 (h.toNat % 16 + 9 * (h.toNat / 64))).toNat = digitValue h :=
    forall_byte (by decide)
  rw [hexCharToNibble, if_pos ((isHexDigit_iff h).mpr hh)]
  exact key h hh

/-- The decoder's value on any other character is the free value (R123). -/
theorem hexCharToNibble_of_not_hex {h : Byte} (hh : ¬ IsHexCode h) :
    hexCharToNibble h = Config.decInvalid h := by
  rw [hexCharToNibble, if_neg fun c => hh ((isHexDigit_iff h).mp c)]

/-- A hex digit stands for a value below 16 (R84). -/
theorem digitValue_lt (h : Byte) : digitValue h < 16 := by
  revert h
  exact forall_byte (by decide)

/-- The characters of a byte (R131, R134). -/
theorem highChar_toNat (b : Byte) : (highChar b).toNat = lowerDigit (b.toNat / 16) := by
  revert b
  exact forall_byte (by decide)

/-- The characters of a byte (R131, R134). -/
theorem lowChar_toNat (b : Byte) : (lowChar b).toNat = lowerDigit (b.toNat % 16) := by
  revert b
  exact forall_byte (by decide)

/-- The packed byte (R154): `16 * high + low`. -/
theorem packNibbles_toNat (high low : Nibble) : (packNibbles high low).toNat = 16 * high.toNat + low.toNat := by
  have key : ∀ x y : Fin 16, (packNibbles (BitVec.ofFin x) (BitVec.ofFin y)).toNat = 16 * x.val + y.val := by decide
  exact key high.toFin low.toFin

/-- A byte encoded and decoded is itself (R161). -/
theorem pairByte_of_chars (b : Byte) : pairByte (highChar b) (lowChar b) = b := by
  have key : ∀ b : Byte, IsHexCode (highChar b) ∧ IsHexCode (lowChar b)
      ∧ 16 * digitValue (highChar b) + digitValue (lowChar b) = b.toNat := forall_byte (by decide)
  obtain ⟨hh, hl, hv⟩ := key b
  apply BitVec.eq_of_toNat_eq
  rw [pairByte, packNibbles_toNat, hexCharToNibble_of_hex hh, hexCharToNibble_of_hex hl, hv]

/-- The digit of a hex digit's value is that digit in lower case (R116, R161). -/
theorem lowerDigit_digitValue {h : Byte} (hh : IsHexCode h) : lowerDigit (digitValue h) = (lowered h).toNat := by
  have key : ∀ h : Byte, IsHexCode h → lowerDigit (digitValue h) = (lowered h).toNat := forall_byte (by decide)
  exact key h hh

end Sys2Proof.Machine
end

