-- ==== Sys2Proof/Machine/Assembler.lean ====
section
/-! DEFINITION. The assembly syntax of `30_encoding.md` R80, read from one line of text: the mnemonic, the
operands in parentheses separated by commas, and an optional `-> name` for the response. `Instr.text`
writes it. Nothing of the machine depends on it: a command reaches a block as a word (R71). -/

namespace Sys2Proof.Machine

/-- A line of assembly: the command, and the name its response is given, if any (R80). -/
structure Line where
  instr : Instr
  name : Option (List Char)
  deriving DecidableEq, Repr

/-- Drop leading spaces. -/
def skipSpaces (cs : List Char) : List Char := cs.dropWhile fun c => c == ' '

/-- The characters of numbers, mnemonics and names. -/
def isWordChar (c : Char) : Bool := c.isAlphanum || c == '_'

/-- The value of a digit in a base up to 16. -/
def charDigit (base : Nat) (c : Char) : Option Nat :=
  let v :=
    if 0x30 ≤ c.toNat ∧ c.toNat ≤ 0x39 then c.toNat - 0x30
    else if 0x41 ≤ c.toNat ∧ c.toNat ≤ 0x46 then c.toNat - 0x37
    else if 0x61 ≤ c.toNat ∧ c.toNat ≤ 0x66 then c.toNat - 0x57
    else base
  if v < base then some v else none

/-- Digits read most significant first. -/
def readDigits (base acc : Nat) : List Char → Option Nat
  | [] => some acc
  | c :: cs =>
    match charDigit base c with
    | some d => readDigits base (acc * base + d) cs
    | none => none

/-- A number, `0x41` or `65` (R80). -/
def readNumber (cs : List Char) : Option Nat :=
  match cs with
  | [] => none
  | ['0', 'x'] => none
  | '0' :: 'x' :: ds => readDigits 16 0 ds
  | ds => readDigits 10 0 ds

/-- A number at the head of the text, and the text after it. -/
def takeNumber (cs : List Char) : Option (Nat × List Char) :=
  let t := skipSpaces cs
  match readNumber (t.takeWhile isWordChar) with
  | some n => some (n, t.dropWhile isWordChar)
  | none => none

/-- A scalar operand at the head of the text: a number below 256, or a character between single quotes,
which stands for its 8-bit code (R80). -/
def takeScalar (cs : List Char) : Option (Byte × List Char) :=
  let quote := Char.ofNat 39
  match skipSpaces cs with
  | q :: c :: q' :: rest =>
    if q = quote ∧ q' = quote then (if c.toNat < 256 then some (BitVec.ofNat 8 c.toNat, rest) else none)
    else match takeNumber cs with
      | some (n, rest) => if n < 256 then some (BitVec.ofNat 8 n, rest) else none
      | none => none
  | _ =>
    match takeNumber cs with
    | some (n, rest) => if n < 256 then some (BitVec.ofNat 8 n, rest) else none
    | none => none

/-- The text after one expected character. -/
def expect (c : Char) (cs : List Char) : Option (List Char) :=
  match skipSpaces cs with
  | d :: rest => if d = c then some rest else none
  | [] => none

/-- What may follow the closing parenthesis: nothing, or `-> name` (R80). -/
def takeName (cs : List Char) : Option (Option (List Char)) :=
  match skipSpaces cs with
  | [] => some none
  | '-' :: '>' :: rest =>
    let t := skipSpaces rest
    let name := t.takeWhile isWordChar
    if name ≠ [] ∧ skipSpaces (t.dropWhile isWordChar) = [] then some (some name) else none
  | _ => none

/-- One scalar operand and the end of the line. -/
def scalarLine (make : Byte → Instr) (cs : List Char) : Option Line := do
  let (x, cs) ← takeScalar cs
  let cs ← expect ')' cs
  let name ← takeName cs
  return { instr := make x, name }

/-- Four numbers and the end of the line. -/
def bufferLine (make : Nat → Nat → Nat → Nat → Instr) (cs : List Char) : Option Line := do
  let (w, cs) ← takeNumber cs
  let (x, cs) ← takeNumber (← expect ',' cs)
  let (y, cs) ← takeNumber (← expect ',' cs)
  let (z, cs) ← takeNumber (← expect ',' cs)
  let cs ← expect ')' cs
  let name ← takeName cs
  return { instr := make w x y z, name }

/-- Read one line of assembly (R80). -/
def assemble (cs : List Char) : Option Line := do
  let t := skipSpaces cs
  let mnemonic := t.takeWhile isWordChar
  let args ← expect '(' (t.dropWhile isWordChar)
  if mnemonic = "is_hex_digit".toList then scalarLine .isHexDigit args
  else if mnemonic = "nibble_to_hex_char".toList then scalarLine .nibbleToHexChar args
  else if mnemonic = "hex_char_to_nibble".toList then scalarLine .hexCharToNibble args
  else if mnemonic = "encode_buffer".toList then bufferLine .encodeBuffer args
  else if mnemonic = "decode_buffer".toList then bufferLine .decodeBuffer args
  else none

end Sys2Proof.Machine
end

