-- ==== Sys2Proof/Tests/Slice0.lean ====
section
/-! SUPPORT. Tests of one step or one decoding each, their expected values from `95_test_vectors.md`; then one
witness per statement with hypotheses, that concrete states and operands meet them all together. -/

namespace Sys2Proof.Tests

open Sys2Proof.Machine Sys2Proof.Safety

/-! ### Well-formedness: one ill-formed term per check, which the check refuses -/

theorem test_wellFormed_widest : (Instr.encodeBuffer 0xFFFF 0xFFFF 0xFFFF 0xFFFF).wellFormed .reference = true := by decide
theorem test_illFormed_encode_dst : (Instr.encodeBuffer 0x10000 0 0 0).wellFormed .reference = false := by decide
theorem test_illFormed_encode_hlen : (Instr.encodeBuffer 0 0x10000 0 0).wellFormed .reference = false := by decide
theorem test_illFormed_encode_src : (Instr.encodeBuffer 0 0 0x10000 0).wellFormed .reference = false := by decide
theorem test_illFormed_encode_blen : (Instr.encodeBuffer 0 0 0 0x10000).wellFormed .reference = false := by decide
theorem test_illFormed_decode_dst : (Instr.decodeBuffer 0x10000 0 0 0).wellFormed .reference = false := by decide
theorem test_illFormed_decode_blen : (Instr.decodeBuffer 0 0x10000 0 0).wellFormed .reference = false := by decide
theorem test_illFormed_decode_src : (Instr.decodeBuffer 0 0 0x10000 0).wellFormed .reference = false := by decide
theorem test_illFormed_decode_hlen : (Instr.decodeBuffer 0 0 0 0x10000).wellFormed .reference = false := by decide

/-! ### Decoding: words of `95_test_vectors.md`, and one written out bit by bit per format -/

/-- Section 2.1, `c = 0x46`. -/
theorem test_decode_isHexDigit : decode .reference 0x0000000000000000230 = .ok (.isHexDigit 0x46#8) := by decide
/-- Section 2.2, `v = 0xDE`: all eight bits of `a` arrive. -/
theorem test_decode_nibbleToHexChar : decode .reference 0x00000000000000006F1 = .ok (.nibbleToHexChar 0xDE#8) := by decide
/-- Section 2.3, `h = 0x66`. -/
theorem test_decode_hexCharToNibble : decode .reference 0x0000000000000000332 = .ok (.hexCharToNibble 0x66#8) := by decide
/-- Vector E9. -/
theorem test_decode_encodeBuffer : decode .reference 0x0000808000320100003 = .ok (.encodeBuffer 0x0200 100 0x0100 1) := by decide
/-- Vector B12. -/
theorem test_decode_decodeBuffer : decode .reference 0x000B008000058100004 = .ok (.decodeBuffer 0x0200 11 0x0100 22) := by decide
/-- R71 by hand at `AW = LW = 16`: slen 5, src 3, dcap 9, dst 6, a 0, op 3, from bit 74 down. -/
theorem test_decode_bits_buffer :
    decode .reference 0b000000000000010100000000000000110000000000001001000000000000011000000000011
      = .ok (.encodeBuffer 6 9 3 5) := by decide
/-- R71 by hand at `AW = LW = 16`: every buffer field 0, a 0x61, op 2. -/
theorem test_decode_bits_scalar : decode .reference 0b01100001010 = .ok (.hexCharToNibble 0x61#8) := by decide
/-- R71 by hand at `AW = 4`, `LW = 8`: slen 0x21, src 9, dcap 0x43, dst 6, a 0, op 4. -/
theorem test_decode_other_widths :
    decode { aw := 4, lw := 8 } 0b00100001100101000011011000000000100 = .ok (.decodeBuffer 6 0x43 9 0x21) := by decide
/-- The refusal vector of R76, and the nearest accepted word. -/
theorem test_decode_op5 : decode .reference 0x5 = .error (.reservedOp 5) ∧
    decode .reference 0x4 = .ok (.decodeBuffer 0 0 0 0) := by decide
/-- R71: 75 bits and no more. -/
theorem test_decode_too_wide : decode .reference (2 ^ 75) = .error (.notACommandWord (2 ^ 75)) := by decide
/-- The encoder, on the word of vector E1. -/
theorem test_encode_E1 : encode .reference (.encodeBuffer 0x0200 8 0x0100 4) = 0x0002008000040100003 := by decide
/-- The table's numbering of bits: `op` in the lowest three, and 80 bits hold the 75 of a word. -/
theorem test_decodeTableWord : decodeTableWord 80 0x0002008000040100003 = some (.encodeBuffer 0x0200 8 0x0100 4) ∧
    decodeTableWord 8 0x06 = none ∧ decodeTableWord 16 0x0308 = some (.isHexDigit 0x61#8) := by decide

/-! ### Assembly text (R80, R81) -/

/-- Program 1, command 1, as it is written. -/
theorem test_assemble_buffer : assemble "encode_buffer(0x0200, 8, 0x0100, 4) -> n1".toList
    = some { instr := .encodeBuffer 0x0200 8 0x0100 4, name := some ['n', '1'] } := by decide
/-- Program 2, command 5, and program 4, command 4. -/
theorem test_assemble_scalar :
    assemble "is_hex_digit('g') -> w1".toList = some { instr := .isHexDigit 0x67#8, name := some ['w', '1'] } ∧
    assemble "hex_char_to_nibble(0x30)".toList = some { instr := .hexCharToNibble 0x30#8, name := none } := by decide
theorem test_text : (Instr.decodeBuffer 512 4 256 8).text = "decode_buffer(512, 4, 256, 8)" := by decide
/-- R81: the expansion has the operand order of the command, and the capacity it needs. -/
theorem test_pseudo : (Pseudo.encode 0x0100 4).expand 0x0200 8 = .encodeBuffer 0x0200 8 0x0100 4 ∧
    (Pseudo.encode 0x0100 4).need = 8 ∧ (Pseudo.decode 0x0100 7).need = 3 := by decide

/-! ### The units and one step of each instruction -/

/-- The state after a step, or the state before it where there is none. -/
def stateOf (r : Res State) (s : State) : State :=
  match r with
  | .next t => t
  | .fault _ => s
  | .refused _ => s

/-- The step answers a next state. -/
def answers (r : Res State) : Bool :=
  match r with
  | .next _ => true
  | .fault _ => false
  | .refused _ => false

theorem answers_next {r : Res State} (s : State) (h : answers r = true) : r = .next (stateOf r s) := by
  cases r <;> first | rfl | cases h

/-- Why a step is refused, if it is. -/
def refusalOf (r : Res State) : Option Refusal :=
  match r with
  | .next _ => none
  | .fault _ => none
  | .refused e => some e

/-- The response of block 0 after a step, and `count` elements from `base` on; nothing where it stops. -/
def seen (r : Res State) (base count : Nat) : Option (Option Nat × List Byte) :=
  match r with
  | .next t => some (t.response 0, t.mem.bytes base count)
  | .fault _ => none
  | .refused _ => none

/-- The reset machine with some elements of memory given. -/
def holding (cells : List Host.Cell) : State := { State.reset with mem := { cells } }

/-- `DE AD BE EF` at 0x0100; 0xAA in the first elements of the destination 0x0200 and after it. -/
def bytesState : State := holding
  [(0x0100, 0xDE#8), (0x0101, 0xAD#8), (0x0102, 0xBE#8), (0x0103, 0xEF#8),
   (0x0206, 0xAA#8), (0x0207, 0xAA#8), (0x0208, 0xAA#8)]

/-- `DeAdBeEf` at 0x0100; 0xAA in the destination 0x0200 and after it. -/
def textState : State := holding
  [(0x0100, 0x44#8), (0x0101, 0x65#8), (0x0102, 0x41#8), (0x0103, 0x64#8),
   (0x0104, 0x42#8), (0x0105, 0x65#8), (0x0106, 0x45#8), (0x0107, 0x66#8),
   (0x0203, 0xAA#8), (0x0204, 0xAA#8)]

/-- The 24 rows of section 2.1; 0x47, 0x4B, 0x67, 0x6B tell the bound 5 from the misprinted 10 (C1). -/
theorem test_isHexDigit_rows :
    ([0x00, 0x2F, 0x30, 0x35, 0x39, 0x3A, 0x40, 0x41, 0x43, 0x46, 0x47, 0x4B] : List Byte).map isHexDigit
      = [false, false, true, true, true, false, false, true, true, true, false, false] ∧
    ([0x60, 0x61, 0x64, 0x66, 0x67, 0x6B, 0x7F, 0x80, 0xB0, 0xC1, 0xE6, 0xFF] : List Byte).map isHexDigit
      = [false, true, true, true, false, false, false, false, false, false, false, false] := by decide
/-- Section 2.1 through a command: `F` is a digit, `G` none; the memory is as it was. -/
theorem test_isHexDigit_step :
    seen (exec (.isHexDigit 0x46#8) bytesState) 0x0100 2 = some (some 1, [0xDE#8, 0xAD#8]) ∧
    seen (exec (.isHexDigit 0x47#8) bytesState) 0x0100 2 = some (some 0, [0xDE#8, 0xAD#8]) := by decide
/-- Section 2.2, all ten rows. -/
theorem test_nibbleToHexChar_rows :
    ([0x00, 0x09, 0x0A, 0x0F, 0x10, 0x1A, 0x7B, 0xDE, 0xF0, 0xFF] : List Byte).map nibbleToHexChar
      = [0x30#8, 0x39#8, 0x61#8, 0x66#8, 0x30#8, 0x61#8, 0x62#8, 0x65#8, 0x30#8, 0x66#8] := by decide
theorem test_nibbleToHexChar_step :
    seen (exec (.nibbleToHexChar 0x7B#8) bytesState) 0x0100 1 = some (some 0x62, [0xDE#8]) := by decide
/-- Section 2.3, all nine rows. -/
theorem test_hexCharToNibble_rows :
    ([0x30, 0x35, 0x39, 0x41, 0x43, 0x46, 0x61, 0x63, 0x66] : List Byte).map hexCharToNibble
      = [0#4, 5#4, 9#4, 10#4, 12#4, 15#4, 10#4, 12#4, 15#4] := by decide
/-- R123 on `g`: a completed command whose response is the free value, not the formula's 16. -/
theorem test_hexCharToNibble_invalid :
    exec (.hexCharToNibble 0x67#8) bytesState
      = .next (completed bytesState bytesState.mem (Config.decInvalid 0x67#8).toNat) := rfl
/-- Vector E1, with the untouched element after the destination. -/
theorem test_encodeBuffer_E1 : seen (exec (.encodeBuffer 0x0200 8 0x0100 4) bytesState) 0x0200 9
    = some (some 8, [0x64#8, 0x65#8, 0x61#8, 0x64#8, 0x62#8, 0x65#8, 0x65#8, 0x66#8, 0xAA#8]) := by decide
/-- Vector E3: odd capacity, the slot `dst + 6` untouched. -/
theorem test_encodeBuffer_E3 : seen (exec (.encodeBuffer 0x0200 7 0x0100 4) bytesState) 0x0200 8
    = some (some 6, [0x64#8, 0x65#8, 0x61#8, 0x64#8, 0x62#8, 0x65#8, 0xAA#8, 0xAA#8]) := by decide
/-- Vector B3: mixed case. -/
theorem test_decodeBuffer_B3 : seen (exec (.decodeBuffer 0x0200 4 0x0100 8) textState) 0x0200 5
    = some (some 4, [0xDE#8, 0xAD#8, 0xBE#8, 0xEF#8, 0xAA#8]) := by decide
/-- Vector B7: odd length, the last character ignored. -/
theorem test_decodeBuffer_B7 : seen (exec (.decodeBuffer 0x0200 4 0x0100 7) textState) 0x0200 5
    = some (some 3, [0xDE#8, 0xAD#8, 0xBE#8, 0xAA#8, 0xAA#8]) := by decide
/-- Section 2.5, `4g7F`: whatever the second character's nibble, the high half of the byte is 4. -/
theorem test_invalid_pair_high_half : ∀ x : Nibble, packNibbles 4#4 x >>> 4 = 0x04#8 := by decide

/-! ### Larger states -/

/-- A block with a command in flight. -/
def flying (f : Flight) : Block := { flight := some f, rsp := none }

/-- Vector E1's command before an iteration. -/
def encodeFlight (i j : Nat) : Flight :=
  { job := { dir := .encode, dst := 0x0200, dcap := 8, src := 0x0100, slen := 4 }, i, j, phase := .fetch }

/-- Vector B1's command before an iteration. -/
def decodeFlight (i j : Nat) : Flight :=
  { job := { dir := .decode, dst := 0x0200, dcap := 4, src := 0x0100, slen := 8 }, i, j, phase := .fetch }

/-- Two blocks: block 0 with vector E1's command in flight, block 1 idle. -/
def busyState (inbox : List Event) : State :=
  { bytesState with blocks := [flying (encodeFlight 1 2), Block.idle], inbox }

/-- The same with the first character of an iteration about to be written. -/
def writingState : State :=
  { bytesState with blocks := [flying { encodeFlight 1 2 with phase := .highOut 0xAD#8 }, Block.idle] }

/-- Block 1 moves while block 0 has vector E1's command in flight. -/
def besideState : State := { busyState [] with active := 1 }

/-- Memory of which the first 0x0180 elements can be read only and the rest written only. -/
def guardedState : State :=
  { bytesState with
    regions := [{ base := 0, size := 0x0180, kind := .plain, readable := true, writable := false },
                { base := 0x0180, size := 0xFE80, kind := .plain, readable := false, writable := true }] }

/-- A machine of other widths, more blocks and other memory, with the text of `textState` at its place. -/
def otherState : State :=
  { textState with
    params := { aw := 12, lw := 8 }
    mem := textState.mem.write 0x0201 0x77#8
    blocks := [Block.idle, Block.idle, { flight := none, rsp := some 3 }]
    active := 2 }

/-- A machine whose greatest address is a device register, with a command in flight. -/
def deviceState : State :=
  { busyState [] with
    regions := [{ base := 0, size := 0xFFFF, kind := .plain, readable := true, writable := true },
                { base := 0xFFFF, size := 1, kind := .device, readable := true, writable := true }] }

/-! ### Refusal vectors of section 2.6, each beside the nearest accepted command -/

theorem test_reserved_op_refused :
    refusalOf (step { State.reset with inbox := [.command 0 5] }) = some (.reservedOp 5) ∧
    answers (step { State.reset with inbox := [.command 0 4] }) = true := by decide
theorem test_overlap_refused :
    refusalOf (exec (.encodeBuffer 0x0101 8 0x0100 4) bytesState) = some .footprintsOverlap ∧
    answers (exec (.encodeBuffer 0x0104 8 0x0100 4) bytesState) = true ∧
    seen (exec (.encodeBuffer 0x0100 1 0x0100 4) bytesState) 0x0100 1 = some (some 0, [0xDE#8]) := by decide
theorem test_wrap_refused :
    refusalOf (exec (.decodeBuffer 0xFFFE 4 0x0100 8) textState) = some (.footprintWraps .write) ∧
    answers (exec (.decodeBuffer 0xFFFC 4 0x0100 8) textState) = true ∧
    seen (exec (.decodeBuffer 0xFFFE 2 0x0100 8) textState) 0xFFFE 2 = some (some 2, [0xDE#8, 0xAD#8]) := by decide

/-- R53: the untouched last element of the source lies on a device; with the buffer one element lower it completes;
a command that touches nothing completes wherever its buffers lie (R42). -/
theorem test_device_refused :
    refusalOf (exec (.encodeBuffer 0x0300 2 0xFFFE 2) deviceState) = some (.bufferOnDevice .read) ∧
    refusalOf (exec (.decodeBuffer 0xFFFE 2 0x0300 2) deviceState) = some (.bufferOnDevice .write) ∧
    answers (exec (.encodeBuffer 0x0300 2 0xFFFD 2) deviceState) = true ∧
    answers (exec (.encodeBuffer 0xFFFF 1 0xFFFF 2) deviceState) = true := by decide

/-! ### Placing an instruction -/

/-- A table word placed at the reset machine is the next instruction the step runs. -/
theorem test_withFetchWord_runs :
    seen (step (State.reset.withFetchWord 75 0x0000000000000000308)) 0 0 = some (some 1, []) ∧
    seen (step (bytesState.withFetchWord 75 0x0002008000010100003)) 0x0200 2 = some (some 2, [0x64#8, 0x65#8]) := by decide

/-! ### What the witnesses use -/

/-- A span agrees where each of its elements does. -/
theorem agreeOn_of_elements {sp : Span} {m m' : Memory}
    (h : ∀ k < sp.count, m'.read (sp.base + k) = m.read (sp.base + k)) : AgreeOn sp m m' := by
  rintro a ⟨h1, h2⟩
  have := h (a - sp.base) (by omega)
  rwa [Nat.add_sub_cancel' h1] at this

theorem encodeFlight_ok : FlightOk .reference (encodeFlight 1 2) :=
  ⟨by decide, by decide, by decide, by decide, trivial⟩

theorem decodeFlight_ok : FlightOk .reference (decodeFlight 3 6) :=
  ⟨by decide, by decide, by decide, by decide, trivial⟩

theorem blockOk_idle (p : Params) : BlockOk p Block.idle := ⟨nofun, nofun⟩

theorem blockOk_flying {p : Params} {f : Flight} (h : FlightOk p f) : BlockOk p (flying f) :=
  ⟨fun _ hg => ⟨Option.some.inj hg ▸ h, rfl⟩, nofun⟩

theorem inv_bytesState (inbox : List Event) : Inv { bytesState with inbox } :=
  ⟨by show Params.reference.Valid; decide, by show bytesState.mem.wf 16 = true; decide, by show 0 < 1; decide, fun b hb => by
    obtain rfl : b = Block.idle := by simpa [bytesState, holding, State.reset] using hb
    exact blockOk_idle _, fun b hb f hf => by
    obtain rfl : b = Block.idle := by simpa [bytesState, holding, State.reset] using hb
    cases hf⟩

theorem inv_busyState (inbox : List Event) : Inv (busyState inbox) :=
  ⟨by show Params.reference.Valid; decide, by show bytesState.mem.wf 16 = true; decide, by show 0 < 2; decide, fun b hb => by
    obtain rfl | rfl : b = flying (encodeFlight 1 2) ∨ b = Block.idle := by simpa [busyState] using hb
    · exact blockOk_flying encodeFlight_ok
    · exact blockOk_idle _, fun b hb f hf => by
    obtain rfl | rfl : b = flying (encodeFlight 1 2) ∨ b = Block.idle := by simpa [busyState] using hb
    · obtain rfl : encodeFlight 1 2 = f := Option.some.inj hf
      show Clear (busyState []) (encodeFlight 1 2).job
      decide
    · cases hf⟩

theorem inv_writingState : Inv writingState :=
  ⟨by decide, by decide, by decide, fun b hb => by
    obtain rfl | rfl : b = flying { encodeFlight 1 2 with phase := .highOut 0xAD#8 } ∨ b = Block.idle := by
      simpa [writingState] using hb
    · exact blockOk_flying ⟨by decide, by decide, by decide, by decide, rfl, by decide⟩
    · exact blockOk_idle _, fun b hb f hf => by
    obtain rfl | rfl : b = flying { encodeFlight 1 2 with phase := .highOut 0xAD#8 } ∨ b = Block.idle := by
      simpa [writingState] using hb
    · obtain rfl := Option.some.inj hf
      decide
    · cases hf⟩

/-! ### Witnesses, in the order of the statements -/

theorem witness_DecodeOfEncode : (Instr.encodeBuffer 0xFFFF 0xFFFF 0xFFFF 0xFFFF).WellFormed .reference ∧
    (Instr.decodeBuffer 0xFFFF 0 0xFFFF 0).WellFormed .reference ∧
    (Instr.isHexDigit 0xFF#8).WellFormed .reference ∧ (Instr.nibbleToHexChar 0xFF#8).WellFormed .reference ∧
    (Instr.hexCharToNibble 0xFF#8).WellFormed .reference := by decide

/-- One for every branch: the six op-codes 0 to 5 and 7, with every field at its greatest value. -/
theorem witness_FieldsSelectTheOperation : (∀ op ∈ [0, 1, 2, 3, 4, 5, 7], op < 8) ∧
    Params.reference.FieldsFit 0xFFFF 0xFFFF 0xFFFF 0xFFFF := by decide

theorem witness_DecodedIsWellFormed :
    decode .reference (2 ^ 75 - 4) = .ok (.decodeBuffer 0xFFFF 0xFFFF 0xFFFF 0xFFFF) := by decide

/-- The greatest word with a reserved op-code, the least one, and the greatest word that is an instruction. -/
theorem witness_ReservedOpIsRefused : State.reset.busy 0 = false ∧ 0 < State.reset.blocks.length ∧
    (2 ^ 75 - 1 < 2 ^ State.reset.params.cw ∧ 5 ≤ (2 ^ 75 - 1) % 8) ∧
    (5 < 2 ^ State.reset.params.cw ∧ 5 ≤ 5 % 8) ∧
    (2 ^ 75 - 4 < 2 ^ State.reset.params.cw ∧ (2 ^ 75 - 4) % 8 ≤ 4) := by decide

theorem witness_NibbleDecoderOnHexDigits : ∀ h ∈ ([0x30, 0x39, 0x41, 0x46, 0x61, 0x66] : List Byte), IsHexCode h := by
  decide

theorem witness_NibbleDecoderOnOthers : ∀ h ∈ ([0x2F, 0x3A, 0x40, 0x47, 0x60, 0x67, 0xFF] : List Byte), ¬ IsHexCode h := by
  decide

theorem witness_NibbleDecoderIgnoresCase : ∀ h ∈ ([0x41, 0x46] : List Byte), 0x41 ≤ h.toNat ∧ h.toNat ≤ 0x46 := by
  decide

theorem witness_NibbleRoundTrip : (0x0F#8 : Byte).toNat < 16 ∧ IsHexCode 0x46#8 ∧ IsHexCode 0x39#8 := by decide

/-- A destination that ends with the address space. -/
theorem witness_EncodeBufferCompletes : bytesState.mem.wf bytesState.params.aw = true ∧
    Ready bytesState { dir := .encode, dst := 0xFFF8, dcap := 8, src := 0x0100, slen := 4 } := by decide

theorem witness_EncodeCountBounds : bytesState.active < bytesState.blocks.length ∧
    ∃ t, exec (.encodeBuffer 0x0200 8 0x0100 4) bytesState = .next t :=
  ⟨by decide, _, answers_next bytesState (by decide)⟩

theorem witness_EncodeWithoutRoom : 0 ≤ 1 ∧ 1 ≤ 1 := by decide

/-- The source ends with the element below a device register. -/
theorem witness_EncodeTruncates : 7 < 2 * 4 ∧
    Clear deviceState { dir := .encode, dst := 0x0300, dcap := 7, src := 0xFFFB, slen := 4 } ∧
    deviceState.active < deviceState.blocks.length ∧
    ∃ t, exec (.encodeBuffer 0x0300 7 0xFFFB 4) deviceState = .next t :=
  ⟨by decide, by decide, by decide, _, answers_next deviceState (by decide)⟩

/-- The last slot is the element below the device. -/
theorem witness_EncodeOddCapacity :
    Clear deviceState { dir := .encode, dst := 0xFFF8, dcap := 2 * 3 + 1, src := 0x0300, slen := 4 } := by decide

theorem witness_DecodeBufferCompletes : textState.mem.wf textState.params.aw = true ∧
    Ready textState { dir := .decode, dst := 0xFFFC, dcap := 4, src := 0x0100, slen := 8 } ∧
    IsHexCode (textState.mem.read 0x0106) ∧ IsHexCode (textState.mem.read 0x0107) := by decide

/-- A pair of which one character is a digit and the other is none (0x00). -/
theorem witness_DecodeWithInvalidCharacters : textState.mem.wf textState.params.aw = true ∧
    Ready textState { dir := .decode, dst := 0x0200, dcap := 4, src := 0x0107, slen := 2 } ∧
    IsHexCode (textState.mem.read 0x0107) ∧ ¬ IsHexCode (textState.mem.read 0x0108) := by decide

theorem witness_DecodeCountBounds : textState.active < textState.blocks.length ∧
    ∃ t, exec (.decodeBuffer 0x0200 4 0x0100 8) textState = .next t :=
  ⟨by decide, _, answers_next textState (by decide)⟩

theorem witness_DecodeOddLength :
    Clear deviceState { dir := .decode, dst := 0x0300, dcap := 4, src := 0xFFF8, slen := 2 * 3 + 1 } := by decide

theorem witness_DecodeTruncates : 2 < 8 / 2 ∧
    Clear deviceState { dir := .decode, dst := 0x0300, dcap := 2, src := 0xFFF7, slen := 8 } ∧
    deviceState.active < deviceState.blocks.length ∧
    ∃ t, exec (.decodeBuffer 0x0300 2 0xFFF7 8) deviceState = .next t :=
  ⟨by decide, by decide, by decide, _, answers_next deviceState (by decide)⟩

/-- `De` against `dE`. -/
theorem witness_DecodeIgnoresCase :
    let m' := (textState.mem.write 0x0100 0x64#8).write 0x0101 0x45#8
    textState.mem.wf textState.params.aw = true ∧ m'.wf textState.params.aw = true ∧
    (∀ k < 2 * min 1 (2 / 2), IsHexCode (textState.mem.read (0x0100 + k)) ∧ IsHexCode (m'.read (0x0100 + k)) ∧
      lowered (m'.read (0x0100 + k)) = lowered (textState.mem.read (0x0100 + k))) ∧
    ∃ t, exec (.decodeBuffer 0x0200 1 0x0100 2) textState = .next t :=
  ⟨by decide, by decide, by decide, _, answers_next textState (by decide)⟩

/-- Program 1. -/
theorem witness_BufferRoundTrip_bytes : bytesState.mem.wf bytesState.params.aw = true ∧
    bytesState.active < bytesState.blocks.length ∧ 2 * 4 ≤ 8 ∧ 4 ≤ 4 ∧
    ∃ t, exec (.encodeBuffer 0x0200 8 0x0100 4) bytesState = .next t ∧
      Ready t { dir := .decode, dst := 0x0300, dcap := 4, src := 0x0200, slen := 2 * 4 } :=
  ⟨by decide, by decide, by decide, by decide, _, answers_next bytesState (by decide), by decide⟩

theorem witness_BufferRoundTrip_text : textState.mem.wf textState.params.aw = true ∧
    textState.active < textState.blocks.length ∧ 4 ≤ 4 ∧ 2 * 4 ≤ 8 ∧
    (∀ k < 2 * 4, IsHexCode (textState.mem.read (0x0100 + k))) ∧
    ∃ t, exec (.decodeBuffer 0x0200 4 0x0100 (2 * 4)) textState = .next t ∧
      Ready t { dir := .encode, dst := 0x0300, dcap := 8, src := 0x0200, slen := 4 } :=
  ⟨by decide, by decide, by decide, by decide, by decide, _, answers_next textState (by decide), by decide⟩

theorem witness_MemoryReadAfterWrite : bytesState.mem.wf 16 = true ∧ State.reset.mem.wf 1 = true := by decide

theorem witness_MemoryIsItsContents : bytesState.mem.wf 16 = true ∧
    ((State.reset.mem.write 5 1#8).write 5 0#8).wf 16 = true ∧
    ∀ a, bytesState.mem.read a = bytesState.mem.read a := ⟨by decide, by decide, fun _ => rfl⟩

/-- One element past the top on the read side, on the write side, and no element at all. -/
theorem witness_WrappingFootprintIsRefused :
    (∃ job, jobOf (.encodeBuffer 0x0100 8 0xFFFD 4) = some job ∧ 0 < job.iterations ∧
      2 ^ State.reset.params.aw < job.readSpan.base + job.readSpan.count) ∧
    (∃ job, jobOf (.encodeBuffer 0xFFF9 8 0x0100 4) = some job ∧ 0 < job.iterations ∧
      2 ^ State.reset.params.aw < job.writeSpan.base + job.writeSpan.count) ∧
    ∃ job, jobOf (.decodeBuffer 0xFFFF 0 0xFFFF 8) = some job ∧ job.iterations = 0 :=
  ⟨⟨_, rfl, by decide, by decide⟩, ⟨_, rfl, by decide, by decide⟩, _, rfl, by decide⟩

/-- One shared address, none with the footprints side by side, and two empty footprints. -/
theorem witness_OverlappingFootprintsAreRefused :
    (∃ job, jobOf (.encodeBuffer 0x0103 8 0x0100 4) = some job ∧ job.readSpan.Fits 16 ∧ job.writeSpan.Fits 16 ∧
      job.readSpan.Has 0x0103 ∧ job.writeSpan.Has 0x0103) ∧
    (∃ job, jobOf (.encodeBuffer 0x0104 8 0x0100 4) = some job ∧ job.readSpan.Fits 16 ∧ job.writeSpan.Fits 16 ∧
      ¬ job.readSpan.Meets job.writeSpan) ∧
    ∃ job, jobOf (.encodeBuffer 0x0100 1 0x0100 4) = some job ∧ job.iterations = 0 :=
  ⟨⟨_, rfl, by decide, by decide, by decide, by decide⟩, ⟨_, rfl, by decide, by decide, by decide⟩, _, rfl, by decide⟩

theorem witness_BufferCommandCompletesIffReady :
    jobOf (.decodeBuffer 0x0200 4 0x0100 8) = some { dir := .decode, dst := 0x0200, dcap := 4, src := 0x0100, slen := 8 } :=
  rfl

/-- A device at the last element of a source of which only the first byte is read, at the last slot of a
destination that is not written, and at a touched element. -/
theorem witness_BufferOnDeviceIsRefused : deviceState.deviceAt 0xFFFF = true ∧
    (∃ job, jobOf (.encodeBuffer 0x0300 2 0xFFFE 2) = some job ∧ 0 < job.iterations ∧ job.srcBuffer.Has 0xFFFF ∧
      ¬ job.readSpan.Has 0xFFFF ∧ Placed deviceState.params.aw job) ∧
    (∃ job, jobOf (.decodeBuffer 0xFFFE 2 0x0300 2) = some job ∧ 0 < job.iterations ∧ job.dstBuffer.Has 0xFFFF ∧
      ¬ job.writeSpan.Has 0xFFFF ∧ Placed deviceState.params.aw job) ∧
    ∃ job, jobOf (.decodeBuffer 0xFFFF 1 0x0300 2) = some job ∧ 0 < job.iterations ∧ job.writeSpan.Has 0xFFFF ∧
      job.dstBuffer.Has 0xFFFF ∧ Placed deviceState.params.aw job :=
  ⟨by decide, ⟨_, rfl, by decide⟩, ⟨_, rfl, by decide⟩, _, rfl, by decide⟩

/-- A command the guarded memory admits to its last element, and one that writes one element too low. -/
theorem witness_UnadmittedAccessIsStuck :
    (∀ b ∈ guardedState.blocks, b.flight = none) ∧ (∀ r ∈ guardedState.regions, r.kind = .plain) ∧
    (∃ job, jobOf (.encodeBuffer 0x0180 8 0x017C 4) = some job ∧ Placed guardedState.params.aw job ∧
      (∀ k < job.readSpan.count, mayAccess guardedState .read (job.readSpan.base + k) = true) ∧
      ∀ k < job.writeSpan.count, mayAccess guardedState .write (job.writeSpan.base + k) = true) ∧
    ∃ job, jobOf (.encodeBuffer 0x017F 8 0x0100 4) = some job ∧ Placed guardedState.params.aw job ∧
      mayAccess guardedState .write 0x017F = false :=
  ⟨by decide, by decide, ⟨_, rfl, by decide, by decide, by decide⟩, _, rfl, by decide, by decide⟩

/-- The last element of the read footprint, the last of the write footprint, and the element after it. -/
theorem witness_CallerRaceIsRefused : ∃ b ∈ (busyState []).blocks, ∃ f, b.flight = some f ∧
    f.job.readSpan.Has 0x0103 ∧ f.job.writeSpan.Has 0x0207 ∧ 0x0208 < 2 ^ (busyState []).params.aw ∧
    ∀ b' ∈ (busyState []).blocks, ∀ f', b'.flight = some f' → ¬ f'.job.writeSpan.Has 0x0208 := by
  refine ⟨flying (encodeFlight 1 2), by decide, encodeFlight 1 2, rfl, by decide, by decide, by decide, ?_⟩
  intro b' hb f' hf
  obtain rfl | rfl : b' = flying (encodeFlight 1 2) ∨ b' = Block.idle := by simpa [busyState] using hb
  · obtain rfl : encodeFlight 1 2 = f' := Option.some.inj hf
    decide
  · cases hf

/-- Block 1 writes into block 0's read footprint, into its write footprint, and reads its write footprint. -/
theorem witness_RacingCommandDoesNotComplete : besideState.blocks[0]? = some (flying (encodeFlight 1 2)) ∧
    0 ≠ besideState.active ∧ (encodeFlight 1 2).job.readSpan.Has 0x0103 ∧ (encodeFlight 1 2).job.writeSpan.Has 0x0200 ∧
    (∃ job, jobOf (.decodeBuffer 0x0103 1 0x0300 2) = some job ∧ job.writeSpan.Has 0x0103) ∧
    (∃ job, jobOf (.decodeBuffer 0x0200 1 0x0300 2) = some job ∧ job.writeSpan.Has 0x0200) ∧
    ∃ job, jobOf (.encodeBuffer 0x0300 2 0x0200 1) = some job ∧ job.readSpan.Has 0x0200 :=
  ⟨rfl, by decide, by decide, by decide, ⟨_, rfl, by decide⟩, ⟨_, rfl, by decide⟩, _, rfl, by decide⟩

theorem witness_StepRunsTheCommand : ∃ s : State, s.inbox = [.command 1 0x208] ∧ 1 < s.blocks.length ∧
    s.busy 1 = false ∧ decode s.params 0x208 = .ok (.isHexDigit 0x41#8) :=
  ⟨busyState [.command 1 0x208], rfl, by decide, by decide, by decide⟩

theorem witness_BusyBlockAcceptsNothing : 0 < (busyState []).blocks.length ∧ (busyState []).busy 0 = true ∧
    (∃ t, step (busyState [.command 0 0x208]) = .next t) ∧ ∃ t, step (busyState [.start 0 0x208]) = .next t :=
  ⟨by decide, by decide, ⟨_, answers_next bytesState (by decide)⟩, _, answers_next bytesState (by decide)⟩

theorem witness_ResetInputLeavesTheBlockIdle : otherState.busy 2 = false ∧ 2 < otherState.blocks.length := by decide

theorem witness_ResetInFlightIsRefused : (busyState []).busy 0 = true ∧ 0 < (busyState []).blocks.length := by decide

theorem witness_StepKeepsInv : Inv (busyState []) ∧ ∃ t, step (busyState []) = .next t :=
  ⟨inv_busyState _, _, answers_next bytesState (by decide)⟩

/-- Both operations before their last iteration or earlier. -/
theorem witness_TransientValuesFit : Params.reference.Valid ∧ FlightOk .reference (encodeFlight 1 2) ∧
    (encodeFlight 1 2).i < (encodeFlight 1 2).job.iterations ∧ (encodeFlight 1 2).job.dir = .encode ∧
    FlightOk .reference (decodeFlight 3 6) ∧ (decodeFlight 3 6).i < (decodeFlight 3 6).job.iterations ∧
    (decodeFlight 3 6).job.dir = .decode :=
  ⟨by decide, encodeFlight_ok, by decide, rfl, decodeFlight_ok, by decide, rfl⟩

theorem witness_AtomicStepEqualsAccessByAccess : ∃ job, jobOf (.encodeBuffer 0x0200 8 0x0100 4) = some job ∧
    bytesState.active < bytesState.blocks.length ∧ bytesState.busy bytesState.active = false :=
  ⟨_, rfl, by decide, by decide⟩

theorem witness_IterationAccessOrder :
    ((busyState []).active < (busyState []).blocks.length ∧ (busyState []).flight? = some (encodeFlight 1 2) ∧
      (encodeFlight 1 2).phase = .fetch ∧ loopTest 1 4 2 8 = true ∧ (encodeFlight 1 2).job.dir = .encode) ∧
    ∃ s : State, s.active < s.blocks.length ∧ s.flight? = some (decodeFlight 3 6) ∧
      (decodeFlight 3 6).phase = .fetch ∧ loopTest 3 4 6 8 = true ∧ (decodeFlight 3 6).job.dir = .decode :=
  ⟨by decide, { textState with blocks := [flying (decodeFlight 3 6)] }, by decide⟩

/-- A command of one iteration: three moves in, and with its fourth. -/
theorem witness_FlightEndsAfterItsIterations : bytesState.active < bytesState.blocks.length ∧
    ∃ job u, jobOf (.encodeBuffer 0x0200 2 0x0100 1) = some job ∧ 3 * job.iterations = 3 ∧
      begin (.encodeBuffer 0x0200 2 0x0100 1) bytesState = .next u ∧
      (∃ t, advanceBy 3 u = .next t) ∧ ∃ t, advanceBy 4 u = .next t :=
  ⟨by decide, _, stateOf (begin (.encodeBuffer 0x0200 2 0x0100 1) bytesState) bytesState, rfl, by decide,
    answers_next bytesState (by decide), ⟨_, answers_next bytesState (by decide)⟩, _, answers_next bytesState (by decide)⟩

/-- The caller writes, a command in flight writes, and a command that is given writes. -/
theorem witness_OnlyDestinationsAreWritten :
    (∃ s t : State, Inv s ∧ step s = .next t ∧ t.mem.read 0x0300 ≠ s.mem.read 0x0300) ∧
    (∃ s t : State, Inv s ∧ step s = .next t ∧ t.mem.read 0x0202 ≠ s.mem.read 0x0202) ∧
    ∃ s t : State, Inv s ∧ step s = .next t ∧ t.mem.read 0x0200 ≠ s.mem.read 0x0200 :=
  ⟨⟨_, _, inv_bytesState [.callerWrite 0x0300 1#8], answers_next bytesState (by decide), by decide⟩,
    ⟨_, _, inv_writingState, answers_next bytesState (by decide), by decide⟩,
    _, _, inv_bytesState [.command 0 0x0002008000040100003], answers_next bytesState (by decide), by decide⟩

theorem witness_DestinationContentHasNoEffect :
    textState.mem.wf textState.params.aw = true ∧ otherState.mem.wf textState.params.aw = true ∧
    (∀ job, jobOf (.decodeBuffer 0x0200 4 0x0100 8) = some job → AgreeOn job.readSpan textState.mem otherState.mem) ∧
    textState.mem.read 0x0201 ≠ otherState.mem.read 0x0201 ∧
    ∃ t, exec (.decodeBuffer 0x0200 4 0x0100 8) textState = .next t :=
  ⟨by decide, by decide, fun job hj => by
    obtain rfl := Option.some.inj hj
    exact agreeOn_of_elements (by decide), by decide, _, answers_next textState (by decide)⟩

/-- Two machines of different widths, with different numbers of blocks, different moving blocks, different
pending responses and different memory outside the read footprint. -/
theorem witness_ResultIsAFunctionOfOperandsAndSource :
    textState.mem.wf textState.params.aw = true ∧ otherState.mem.wf otherState.params.aw = true ∧
    textState.active < textState.blocks.length ∧ otherState.active < otherState.blocks.length ∧
    (∀ job, jobOf (.decodeBuffer 0x0200 4 0x0100 8) = some job → AgreeOn job.readSpan textState.mem otherState.mem) ∧
    (∃ t, exec (.decodeBuffer 0x0200 4 0x0100 8) textState = .next t) ∧
    ∃ t, exec (.decodeBuffer 0x0200 4 0x0100 8) otherState = .next t :=
  ⟨by decide, by decide, by decide, by decide, fun job hj => by
    obtain rfl := Option.some.inj hj
    exact agreeOn_of_elements (by decide), ⟨_, answers_next textState (by decide)⟩, _, answers_next textState (by decide)⟩

/-- One for every kind of event: an empty inbox, each word at an idle block, a tick, a reset, the caller's accesses. -/
theorem witness_StepLeavesOtherBlocks : (∃ t, step besideState = .next t) ∧
    ∀ e ∈ ([.command 1 0x208, .start 1 0x208, .tick 0, .reset 1, .callerRead 0x0100, .callerWrite 0x0300 1#8] : List Event),
      answers (step (busyState [e])) = true :=
  ⟨⟨_, answers_next bytesState (by decide)⟩, by decide⟩

/-- A write below the device, beside the footprints of the command in flight. -/
theorem witness_CallerWriteCompletes : deviceState.mem.wf deviceState.params.aw = true ∧
    0xFFFE < 2 ^ deviceState.params.aw ∧ deviceState.raced none .write 0xFFFE = false ∧
    ∀ r, deviceState.regionAt 0xFFFE = some r → r.kind = .plain := by
  refine ⟨by decide, by decide, by decide, fun r hr => ?_⟩
  obtain rfl := Option.some.inj ((show deviceState.regionAt 0xFFFE = _ from rfl).symm.trans hr)
  rfl

/-- A read of the source of the command in flight. -/
theorem witness_CallerReadChangesNothing : 0x0100 < 2 ^ deviceState.params.aw ∧
    deviceState.raced none .read 0x0100 = false ∧ ∀ r, deviceState.regionAt 0x0100 = some r → r.kind = .plain := by
  refine ⟨by decide, by decide, fun r hr => ?_⟩
  obtain rfl := Option.some.inj ((show deviceState.regionAt 0x0100 = _ from rfl).symm.trans hr)
  rfl

/-- At block 1, idle beside a command in flight: a primitive operation, a buffer command that is placed, and one
whose footprints share an address. -/
theorem witness_StepStartsTheCommand : 1 < (busyState []).blocks.length ∧ (busyState []).busy 1 = false ∧
    (decode .reference 0x208 = .ok (.isHexDigit 0x41#8) ∧ jobOf (.isHexDigit 0x41#8) = none) ∧
    (decode .reference 0x0004010000020180004 = .ok (.decodeBuffer 0x0300 4 0x0200 8) ∧
      ∃ job, jobOf (.decodeBuffer 0x0300 4 0x0200 8) = some job ∧ Acceptable (busyState []) job) ∧
    decode .reference (encode .reference (.encodeBuffer 0x0101 8 0x0100 4)) = .ok (.encodeBuffer 0x0101 8 0x0100 4) ∧
      ∃ job, jobOf (.encodeBuffer 0x0101 8 0x0100 4) = some job ∧ ¬ Acceptable (busyState []) job :=
  ⟨by decide, by decide, ⟨by decide, rfl⟩, ⟨by decide, _, rfl, by decide⟩, by decide, _, rfl, by decide⟩

/-- A busy block, and an idle one. -/
theorem witness_TickMovesTheBlock : (busyState [.tick 0]).inbox = [.tick 0] ∧ (busyState [.tick 0]).busy 0 = true ∧
    (busyState [.tick 1]).inbox = [.tick 1] ∧ 1 < (busyState [.tick 1]).blocks.length ∧
    (busyState [.tick 1]).busy 1 = false := by decide

/-- An idle machine, and one whose second block is the first that is busy. -/
theorem witness_QuietStepMovesTheFirstBusyBlock : (State.reset.inbox = [] ∧ ∀ k, State.reset.busy k = false) ∧
    ∃ s : State, s.inbox = [] ∧ s.busy 1 = true ∧ ∀ j < 1, s.busy j = false :=
  ⟨⟨rfl, fun k => by cases k <;> rfl⟩,
    { busyState [] with blocks := [Block.idle, flying (encodeFlight 1 2)] }, by decide⟩

end Sys2Proof.Tests
end

/-! # The scope of a step: what it keeps, what it leaves, and what a result depends on -/

namespace Sys2Proof

/-! ## Operands that were decoded -/

/-- What a command word decodes to has operands that fit their fields (R71, R75). -/
theorem decode_wellFormed {p : Params} {w : Nat} {i : Instr} (h : decode p w = .ok i) : i.WellFormed p := by
  have hfit : p.FieldsFit (dstField p w) (dcapField p w) (srcField p w) (slenField p w) :=
    ⟨bitsAt_lt _ _ _, bitsAt_lt _ _ _, bitsAt_lt _ _ _, bitsAt_lt _ _ _⟩
  unfold decode at h
  split at h
  · cases h
  · split at h <;> cases h
    · trivial
    · trivial
    · trivial
    · exact hfit
    · exact hfit

end Sys2Proof

namespace Sys2Proof.Machine

open Sys2Proof.Safety

/-- The operands of a well-formed buffer command fit their fields (R71). -/
theorem fieldsFit_of_wellFormed {p : Params} {i : Instr} {job : Job} (hw : i.WellFormed p)
    (hj : jobOf i = some job) : p.FieldsFit job.dst job.dcap job.src job.slen := by
  cases i <;> cases hj <;> exact hw

/-- The count after `i` iterations is at most the capacity of the destination, so it fits `LW` bits (R133, R153). -/
theorem countAt_lt {p : Params} {job : Job} {i : Nat} (hf : p.FieldsFit job.dst job.dcap job.src job.slen)
    (hi : i ≤ job.iterations) : job.countAt i (2 * i) < 2 ^ p.lw := by
  obtain ⟨_, hcap, _, _⟩ := hf
  refine Nat.lt_of_le_of_lt ?_ hcap
  obtain ⟨dir, dst, dcap, src, slen⟩ := job
  cases dir <;> simp only [Job.iterations, Job.blen, Job.hlen, Job.countAt] at hi ⊢ <;> omega

/-! ## The invariant: one block, one update -/

/-- What the invariant says of one block of the machine. -/
def BlockKept (s : State) (b : Block) : Prop :=
  BlockOk s.params b ∧ ∀ f, b.flight = some f → Clear s f.job

/-- The invariant holds of each block. -/
theorem inv_blockKept {s : State} (h : Inv s) : ∀ b ∈ s.blocks, BlockKept s b :=
  fun b hb => ⟨h.blocks b hb, h.clear b hb⟩

/-- An idle block with no response pending (R190). -/
theorem blockKept_idle (s : State) : BlockKept s Block.idle := ⟨⟨nofun, nofun⟩, nofun⟩

/-- A block that has delivered a response of `LW` bits (R78). -/
theorem blockKept_response {s : State} {v : Nat} (hv : v < 2 ^ s.params.lw) :
    BlockKept s { flight := none, rsp := some v } :=
  ⟨⟨nofun, fun _ h => Option.some.inj h ▸ hv⟩, nofun⟩

/-- A block with a command in flight and no response beside it (R59, R79). -/
theorem blockKept_flight {s : State} {f : Flight} (hf : FlightOk s.params f) (hc : Clear s f.job) :
    BlockKept s { flight := some f, rsp := none } :=
  ⟨⟨fun _ h => Option.some.inj h ▸ ⟨hf, rfl⟩, nofun⟩, fun _ h => Option.some.inj h ▸ hc⟩

/-- Where devices lie is a matter of the widths and the regions alone. -/
theorem clear_congr {s t : State} (hp : t.params = s.params) (hr : t.regions = s.regions) (job : Job) :
    Clear t job ↔ Clear s job := by
  simp only [Clear, State.deviceAt, State.regionAt, hp, hr]

/-- A state that has the widths and regions of one with the invariant has it too, if its memory is canonical, its
moving block exists and each of its blocks is as the invariant says. -/
theorem inv_of_blocks {s t : State} (h : Inv s) (hp : t.params = s.params) (hr : t.regions = s.regions)
    (hm : t.mem.wf s.params.aw = true) (ha : t.active < t.blocks.length) (hb : ∀ b ∈ t.blocks, BlockKept s b) :
    Inv t where
  params := hp ▸ h.params
  mem := hp ▸ hm
  active := ha
  blocks b hmem := hp ▸ (hb b hmem).1
  clear b hmem f hf := (clear_congr hp hr f.job).mpr ((hb b hmem).2 f hf)

/-- An update of memory and of the block that moves. -/
theorem inv_onActive {s : State} {m : Memory} {f : Block → Block} (h : Inv s) (hm : m.wf s.params.aw = true)
    (hf : ∀ b, s.blocks[s.active]? = some b → BlockKept s (f b)) :
    Inv (({ s with mem := m } : State).onActive f) :=
  inv_of_blocks h rfl rfl hm (by simpa using h.active) (forall_mem_modify (inv_blockKept (s := s) h) hf)

/-- A command that completes. -/
theorem inv_completed {s : State} {m : Memory} {v : Nat} (h : Inv s) (hm : m.wf s.params.aw = true)
    (hv : v < 2 ^ s.params.lw) : Inv (completed s m v) :=
  inv_onActive h hm fun _ _ => blockKept_response hv

/-- The next event is taken and an existing block moves. -/
theorem inv_taken {s : State} {k : Nat} (h : Inv s) (hk : k < s.blocks.length) (rest : List Event) :
    Inv (s.taken k rest) :=
  inv_of_blocks h rfl rfl h.mem hk (inv_blockKept (s := s) h)

/-! ## The invariant: a command in flight -/

/-- The command in flight at the block that moves is as the invariant says. -/
theorem inv_flight {s : State} {f : Flight} (h : Inv s) (hf : s.flight? = some f) :
    FlightOk s.params f ∧ Clear s f.job := by
  obtain ⟨b, hb, hbf⟩ := flight?_eq_some hf
  have hmem := List.mem_of_getElem? hb
  exact ⟨((h.blocks b hmem).flight f hbf).1, h.clear b hmem f hbf⟩

/-- Another phase of the same iteration (R57). -/
theorem flightOk_phase {p : Params} {f : Flight} {phase : Phase} (h : FlightOk p f)
    (hphase : PhaseFits { f with phase }) : FlightOk p { f with phase } :=
  ⟨h.fields, h.placed, h.pair, h.bound, hphase⟩

/-- The head of the next iteration (R131, R151). -/
theorem flightOk_next {p : Params} {f : Flight} (h : FlightOk p f) (hi : f.i < f.job.iterations) :
    FlightOk p { f with i := f.i + 1, j := f.j + 2, phase := .fetch } :=
  ⟨h.fields, h.placed, by have := h.pair; dsimp only; omega, hi, trivial⟩

/-- The progress of a command in flight is recorded, beside a write to memory. -/
theorem inv_setFlight {s : State} {m : Memory} {f g : Flight} (h : Inv s) (hf : s.flight? = some f)
    (hm : m.wf s.params.aw = true) (hg : FlightOk s.params g) (hjob : g.job = f.job) :
    Inv (({ s with mem := m } : State).setFlight g) := by
  refine inv_onActive h hm fun b hb => ?_
  obtain ⟨b', hb', hbf⟩ := flight?_eq_some hf
  obtain rfl : b' = b := Option.some.inj (hb'.symm.trans hb)
  have hrsp : b'.rsp = none := ((h.blocks b' (List.mem_of_getElem? hb)).flight f hbf).2
  rw [hrsp]
  exact blockKept_flight hg (hjob ▸ (inv_flight h hf).2)

/-- A move of the command in flight at the block that moves (R57). -/
theorem inv_advanceFlight {s t : State} {f : Flight} (h : Inv s) (hf : s.flight? = some f)
    (ha : advanceFlight f s = .next t) : Inv t := by
  have hok := (inv_flight h hf).1
  have hphase := hok.phase
  have hloop (hl : loopTest f.i f.job.blen f.j f.job.hlen = true) : f.i < f.job.iterations :=
    loopTest_eq_true.mp (hok.pair ▸ hl)
  have hwrite {a : Nat} {v : Byte} (hacc : mayAccess s .write a = true) : (s.mem.write a v).wf s.params.aw = true :=
    Memory.write_wf (mayAccess_lt hacc) h.mem
  rcases advanceFlight_cases ha with ⟨_, _, rfl⟩ | ⟨_, hl, hd, rfl⟩ | ⟨_, hl, hd, rfl⟩ | ⟨_, hp, rfl⟩ |
    ⟨_, hp, hacc, rfl⟩ | ⟨_, hp, hacc, rfl⟩ | ⟨_, _, hp, hacc, rfl⟩
  · exact inv_completed h h.mem (hok.pair ▸ countAt_lt hok.fields hok.bound)
  · exact inv_setFlight h hf h.mem (flightOk_phase hok ⟨hd, hloop hl⟩) rfl
  · exact inv_setFlight h hf h.mem (flightOk_phase hok ⟨hd, hloop hl⟩) rfl
  all_goals rw [PhaseFits, hp] at hphase
  · exact inv_setFlight h hf h.mem (flightOk_phase hok hphase) rfl
  · exact inv_setFlight h hf (hwrite hacc) (flightOk_phase hok hphase) rfl
  · exact inv_setFlight h hf (hwrite hacc) (flightOk_next hok hphase.2) rfl
  · exact inv_setFlight h hf (hwrite hacc) (flightOk_next hok hphase.2) rfl

/-- A move of the block that moves, busy or idle (R57, R183). -/
theorem inv_advance {s t : State} (h : Inv s) (ha : advance s = .next t) : Inv t := by
  unfold advance at ha
  split at ha
  · exact Host.Outcome.next.inj ha ▸ h
  · rename_i f hf
    exact inv_advanceFlight h hf ha

/-! ## The invariant: a command that is given -/

/-- A completed instruction whose operands fit (R133, R153: the count fits `LW` bits, as each capacity does). -/
theorem inv_exec {s t : State} {i : Instr} (h : Inv s) (hw : i.WellFormed s.params) (hx : exec i s = .next t) :
    Inv t := by
  obtain ⟨_, hlw⟩ := h.params
  rcases exec_cases hx with ⟨_, v, hv, rfl⟩ | ⟨job, hj, hready, rfl⟩
  · have hpow : 2 ^ 8 ≤ 2 ^ s.params.lw := Nat.pow_le_pow_right (by decide) hlw
    exact inv_completed h h.mem (Nat.lt_of_lt_of_le hv hpow)
  · exact inv_completed h (jobResult_wf hready h.mem) (countAt_lt (fieldsFit_of_wellFormed hw hj) le_rfl)

/-- A command begun access by access: performed at once, or in flight before its first iteration (R30). -/
theorem inv_begin {s t : State} {i : Instr} (h : Inv s) (hw : i.WellFormed s.params) (hb : begin i s = .next t) :
    Inv t := by
  rcases begin_cases hb with ⟨_, hx⟩ | ⟨job, hj, ⟨hplaced, hclear⟩, rfl⟩
  · exact inv_exec h hw hx
  · have hok : FlightOk s.params { job, i := 0, j := 0, phase := .fetch } :=
      ⟨fieldsFit_of_wellFormed hw hj, hplaced, rfl, Nat.zero_le _, trivial⟩
    exact inv_onActive h h.mem fun _ _ => blockKept_flight hok hclear

/-- Settles O41: the invariant is kept by each of the moves a step can be. -/
theorem stepKeepsInv : Obligations.StepKeepsInv := by
  unfold Obligations.StepKeepsInv
  intro s t h hstep
  rcases step_cases hstep with ⟨_, rfl⟩ | ⟨k, rest, hk, _, ha⟩ | ⟨k, w, rest, i, _, hk, _, hd, hx⟩ |
    ⟨k, w, rest, i, _, hk, _, hd, hb⟩ | ⟨a, rest, _, rfl⟩ | ⟨a, v, rest, _, hlt, _, rfl⟩ | ⟨k, rest, _, _, _, rfl⟩
  · exact h
  · exact inv_advance (inv_taken h hk rest) ha
  · exact inv_exec (inv_taken h hk rest) (decode_wellFormed hd) hx
  · exact inv_begin (inv_taken h hk rest) (decode_wellFormed hd) hb
  · exact inv_of_blocks h rfl rfl h.mem h.active (inv_blockKept (s := s) h)
  · exact inv_of_blocks h rfl rfl (Memory.write_wf hlt h.mem) h.active (inv_blockKept (s := s) h)
  · refine inv_of_blocks h rfl rfl h.mem (by simpa using h.active) fun b hb => ?_
    rcases List.mem_or_eq_of_mem_set hb with hb | rfl
    · exact inv_blockKept h b hb
    · exact blockKept_idle s

/-! ## What the result of an instruction depends on -/

/-- A primitive operation completes in every state with one and the same value (R20). -/
theorem exec_primitive {i : Instr} (hj : jobOf i = none) : ∃ v, ∀ s, exec i s = .next (completed s s.mem v) := by
  cases i with
  | isHexDigit c => exact ⟨_, fun _ => rfl⟩
  | nibbleToHexChar v => exact ⟨_, fun _ => rfl⟩
  | hexCharToNibble h => exact ⟨_, fun _ => rfl⟩
  | encodeBuffer dst hlen src blen => cases hj
  | decodeBuffer dst blen src hlen => cases hj

/-- The characters a ready `encode_buffer` writes are a function of the bytes it reads (R134). -/
theorem encode_agree {s s' : State} {dst hlen src blen : Nat}
    (h : Ready s { dir := .encode, dst, dcap := hlen, src, slen := blen })
    (h' : Ready s' { dir := .encode, dst, dcap := hlen, src, slen := blen })
    (hm : s.mem.wf s.params.aw = true) (hm' : s'.mem.wf s'.params.aw = true)
    (hread : ∀ k < min blen (hlen / 2), s'.mem.read (src + k) = s.mem.read (src + k)) :
    ∀ k < 2 * min blen (hlen / 2),
      (changes (encodeChange dst src) 0 (min blen (hlen / 2)) s'.mem).read (dst + k)
        = (changes (encodeChange dst src) 0 (min blen (hlen / 2)) s.mem).read (dst + k) := by
  intro k hk
  obtain ⟨hlt, hoff⟩ := ready_encode h
  obtain ⟨hlt', hoff'⟩ := ready_encode h'
  have hbyte : k / 2 < min blen (hlen / 2) := by omega
  obtain ⟨hhigh, hlow⟩ := changes_encode_data hm _ hlt hoff _ hbyte
  obtain ⟨hhigh', hlow'⟩ := changes_encode_data hm' _ hlt' hoff' _ hbyte
  rw [hread _ hbyte] at hhigh' hlow'
  rcases Nat.mod_two_eq_zero_or_one k with hp | hp
  · rw [show dst + k = dst + 2 * (k / 2) by omega, hhigh, hhigh']
  · rw [show dst + k = dst + 2 * (k / 2) + 1 by omega, hlow, hlow']

/-- The bytes a ready `decode_buffer` writes are a function of the characters it reads (R154, R156). -/
theorem decode_agree {s s' : State} {dst blen src hlen : Nat}
    (h : Ready s { dir := .decode, dst, dcap := blen, src, slen := hlen })
    (h' : Ready s' { dir := .decode, dst, dcap := blen, src, slen := hlen })
    (hm : s.mem.wf s.params.aw = true) (hm' : s'.mem.wf s'.params.aw = true)
    (hread : ∀ k < 2 * min blen (hlen / 2), s'.mem.read (src + k) = s.mem.read (src + k)) :
    ∀ k < min blen (hlen / 2),
      (changes (decodeChange dst src) 0 (min blen (hlen / 2)) s'.mem).read (dst + k)
        = (changes (decodeChange dst src) 0 (min blen (hlen / 2)) s.mem).read (dst + k) := by
  intro k hk
  obtain ⟨hlt, hoff⟩ := ready_decode h
  obtain ⟨hlt', hoff'⟩ := ready_decode h'
  have hfirst := hread (2 * k) (by omega)
  have hsecond := hread (2 * k + 1) (by omega)
  rw [← Nat.add_assoc] at hsecond
  rw [changes_decode_data hm _ hlt hoff k hk, changes_decode_data hm' _ hlt' hoff' k hk, hfirst, hsecond]

/-- What a ready buffer command writes is a function of what it reads (R20, R48, R49). -/
theorem jobResult_agree {s s' : State} {job : Job} (h : Ready s job) (h' : Ready s' job)
    (hm : s.mem.wf s.params.aw = true) (hm' : s'.mem.wf s'.params.aw = true)
    (hagree : AgreeOn job.readSpan s.mem s'.mem) :
    AgreeOn job.writeSpan (jobResult job s.mem) (jobResult job s'.mem) := by
  intro a ha
  obtain ⟨k, hk, rfl⟩ := ha.exists_offset
  have hread : ∀ j < job.readSpan.count, s'.mem.read (job.readSpan.base + j) = s.mem.read (job.readSpan.base + j) :=
    fun j hj => hagree _ ⟨by omega, by omega⟩
  obtain ⟨dir, dst, dcap, src, slen⟩ := job
  cases dir
  · exact encode_agree h h' hm hm' hread k hk
  · exact decode_agree h h' hm hm' hread k hk

/-- Settles O48: a primitive operation has one value, a buffer command one count and one result. -/
theorem resultIsAFunctionOfOperandsAndSource : Obligations.ResultIsAFunctionOfOperandsAndSource := by
  unfold Obligations.ResultIsAFunctionOfOperandsAndSource
  intro s s' t t' i hm hm' hs hs' hagree hx hx'
  cases hj : jobOf i with
  | none =>
    obtain ⟨v, hv⟩ := exec_primitive hj
    obtain rfl := Host.Outcome.next.inj ((hv s).symm.trans hx)
    obtain rfl := Host.Outcome.next.inj ((hv s').symm.trans hx')
    exact ⟨by rw [completed_response _ _ _ hs, completed_response _ _ _ hs'], nofun⟩
  | some job =>
    obtain ⟨hready, rfl⟩ := (exec_job_eq_next hj).mp hx
    obtain ⟨hready', rfl⟩ := (exec_job_eq_next hj).mp hx'
    refine ⟨by rw [completed_response _ _ _ hs, completed_response _ _ _ hs'], ?_⟩
    rintro _ ⟨⟩
    exact jobResult_agree hready hready' hm hm' (hagree job hj)

/-! ## What a step leaves alone -/

/-- The change from `s` to `t` is block `k`'s alone: it becomes the moving block, no other block changes,
and neither do the widths, the regions or the number of blocks (R32, R181). -/
def ChangesOnly (k : Nat) (s t : State) : Prop :=
  t.params = s.params ∧ t.regions = s.regions ∧ t.blocks.length = s.blocks.length ∧ t.active = k ∧
    ∀ j : Nat, j ≠ k → t.blocks[j]? = s.blocks[j]?

/-- What leaves the rest alone once block `k` has its turn changes that block only. -/
theorem changesOnly_of_taken {k : Nat} {rest : List Event} {s t : State} (h : LeavesOthers (s.taken k rest) t) :
    ChangesOnly k s t := by
  obtain ⟨_, hparams, hregions, hactive, hlength, hblocks⟩ := h
  exact ⟨hparams, hregions, hlength, hactive, hblocks⟩

/-- A command that is begun leaves the rest alone. -/
theorem begin_leavesOthers {i : Instr} {s t : State} (h : begin i s = .next t) : LeavesOthers s t := by
  rcases begin_cases h with ⟨_, hx⟩ | ⟨job, _, _, rfl⟩
  · exact exec_leavesOthers hx
  · exact onActive_leavesOthers s s.mem _

/-- Settles O49: each move of a step changes the one block it names, or none. -/
theorem stepLeavesOtherBlocks : Obligations.StepLeavesOtherBlocks := by
  unfold Obligations.StepLeavesOtherBlocks
  intro s t hstep
  rcases step_cases hstep with ⟨hi, rfl⟩ | ⟨k, rest, _, hturn, ha⟩ | ⟨k, w, rest, i, hi, _, _, _, hx⟩ |
    ⟨k, w, rest, i, hi, _, _, _, hb⟩ | ⟨a, rest, hi, rfl⟩ | ⟨a, v, rest, hi, _, _, rfl⟩ | ⟨k, rest, hi, _, _, rfl⟩
  · rw [hi]
    exact ⟨rfl, rfl, rfl, fun _ _ => rfl⟩
  · obtain ⟨hparams, hregions, hlength, hactive, hblocks⟩ := changesOnly_of_taken (advance_leavesOthers ha)
    refine ⟨hparams, hregions, hlength, ?_⟩
    rcases hturn with hi | ⟨hi, rfl | ⟨w, tail, rfl | rfl⟩⟩ <;> rw [hi]
    · exact ⟨hactive, hblocks⟩
    · exact hactive ▸ hblocks
    · exact ⟨hactive, hblocks⟩
    · exact ⟨hactive, hblocks⟩
  · rw [hi]
    exact changesOnly_of_taken (exec_leavesOthers hx)
  · rw [hi]
    exact changesOnly_of_taken (begin_leavesOthers hb)
  · rw [hi]
    exact ⟨rfl, rfl, rfl, rfl⟩
  · rw [hi]
    exact ⟨rfl, rfl, rfl, rfl⟩
  · rw [hi]
    exact ⟨rfl, rfl, by simp, fun j hj => by simp [Ne.symm hj]⟩

end Sys2Proof.Machine

/-! # The state of the block: its start, the acceptance of a command, and what its result does not rest on -/

namespace Sys2Proof.Machine

open Sys2Proof.Safety

/-- Every block of the reset machine is the idle one (R33, R190). -/
theorem reset_block_idle {b : Block} (h : b ∈ State.reset.blocks) : b = Block.idle := List.mem_singleton.mp h

/-- At a number where there is no block, or an idle one, no command is in flight and no response pending (R190). -/
theorem idle_of_block_idle {s : State} {k : Nat} (h : ∀ b, s.blocks[k]? = some b → b = Block.idle) :
    s.busy k = false ∧ s.response k = none := by
  unfold State.busy State.response
  cases hb : s.blocks[k]? with
  | none => exact ⟨rfl, rfl⟩
  | some b =>
    obtain rfl := h b hb
    exact ⟨rfl, rfl⟩

/-- The reset machine has the invariant (R8, R33, R190). -/
theorem inv_reset : Inv State.reset where
  params := by decide
  mem := reset_mem_wf
  active := by decide
  blocks _ hb := reset_block_idle hb ▸ (blockKept_idle State.reset).1
  clear _ hb := reset_block_idle hb ▸ (blockKept_idle State.reset).2

/-- Settles O40: the one block of the reset machine is idle. -/
theorem resetStateIsIdle : Obligations.ResetStateIsIdle := by
  unfold Obligations.ResetStateIsIdle
  exact ⟨fun _ => idle_of_block_idle fun _ hb => reset_block_idle (List.mem_of_getElem? hb), inv_reset⟩

/-- An idle block accepts a command word and runs what it decodes to (R79). -/
theorem offerCommand_idle {s : State} {k w : Nat} {i : Instr} (rest : List Event) (run : Instr → State → Res State)
    (hk : k < s.blocks.length) (hb : s.busy k = false) (hd : decode s.params w = .ok i) :
    offerCommand k w rest s run = run i (s.taken k rest) := by
  rw [offerCommand, if_neg (Nat.not_le.mpr hk), hb, if_neg Bool.false_ne_true, withDecoded, State.taken_params, hd]

/-- A primitive operation is performed at once (R50). -/
theorem begin_primitive {i : Instr} (hj : jobOf i = none) (s : State) : begin i s = exec i s := by
  rw [begin, hj]

/-- A buffer command makes no access when it is begun: only its acceptance can stop it (R30). -/
theorem begin_job {i : Instr} {job : Job} (hj : jobOf i = some job) (s : State) :
    begin i s = andThen (s.accept job) fun _ => .next (s.launch job) := by
  rw [begin, hj]

/-- An acceptable buffer command is put in flight at the block that moves (R30, R31). -/
theorem begin_acceptable {s : State} {i : Instr} {job : Job} (hj : jobOf i = some job) (ha : Acceptable s job) :
    begin i s = .next (s.launch job) := by
  rw [begin_job hj, accept_eq_next.mpr ha, andThen_next]

/-- A buffer command that is not acceptable is refused before any access (R42, R53, R56). -/
theorem begin_not_acceptable {s : State} {i : Instr} {job : Job} (hj : jobOf i = some job)
    (ha : ¬ Acceptable s job) : ∃ r, begin i s = .refused r := by
  rcases accept_cases s job with h | ⟨r, h⟩
  · exact absurd (accept_eq_next.mp h) ha
  · exact ⟨r, by rw [begin_job hj, h, andThen_refused]⟩

/-- A launch at a block that has its turn replaces what that block held (R30, R31). -/
theorem launch_taken (s : State) (k : Nat) (rest : List Event) (job : Job) :
    (s.taken k rest).launch job = { s with
      active := k, inbox := rest
      blocks := s.blocks.set k { flight := some { job, i := 0, j := 0, phase := .fetch }, rsp := none } } := by
  rw [List.set_eq_modify]
  rfl

/-- Whose turn it is and what the inbox holds have no part in whether a buffer command is acceptable. -/
theorem acceptable_taken {s : State} {k : Nat} {rest : List Event} {job : Job} :
    Acceptable (s.taken k rest) job ↔ Acceptable s job := Iff.rfl

/-- Settles O52: an idle block accepts the word, and what it decodes to is begun. -/
theorem stepStartsTheCommand : Obligations.StepStartsTheCommand := by
  unfold Obligations.StepStartsTheCommand
  intro s k w rest i hinbox hk hb hd
  have hstep : step s = begin i (s.taken k rest) := by
    rw [step, stepEvent, hinbox]
    exact offerCommand_idle rest begin hk hb hd
  refine ⟨hstep, fun hj => hstep.trans (begin_primitive hj _), fun job hj => ?_⟩
  rw [hstep]
  split
  · next ha => rw [← launch_taken, begin_acceptable hj (acceptable_taken.mpr ha)]
  · next ha => exact begin_not_acceptable hj (acceptable_taken.not.mpr ha)

/-- What a memory holds has no part in whether a buffer command is ready (R20). -/
theorem ready_withMem {s : State} {job : Job} (m : Memory) : Ready { s with mem := m } job ↔ Ready s job := Iff.rfl

/-- Settles O47: a primitive operation has one value; a buffer command is ready on both memories or on neither, and
what it writes is a function of what it reads. -/
theorem destinationContentHasNoEffect : Obligations.DestinationContentHasNoEffect := by
  unfold Obligations.DestinationContentHasNoEffect
  intro s t i m' hm hm' hagree hx
  cases hj : jobOf i with
  | none =>
    obtain ⟨v, hv⟩ := exec_primitive hj
    obtain rfl := Host.Outcome.next.inj ((hv s).symm.trans hx)
    exact ⟨_, hv { s with mem := m' }, rfl, nofun⟩
  | some job =>
    obtain ⟨hready, rfl⟩ := (exec_job_eq_next hj).mp hx
    have hready' := (ready_withMem m').mpr hready
    refine ⟨_, (exec_job_eq_next hj).mpr ⟨hready', rfl⟩, rfl, ?_⟩
    rintro _ ⟨⟩
    exact jobResult_agree hready hready' hm hm' (hagree job hj)

end Sys2Proof.Machine

/-! # Memory, what may touch it, and the run of a buffer command access by access -/

namespace Sys2Proof.Machine

open Sys2Proof.Safety

/-! ## What a write and a command change in memory -/

/-- An element that reads differently after a write is the one that was written (R43). -/
theorem eq_of_read_write_ne {m : Memory} {a b : Nat} {v : Byte} (h : (m.write b v).read a ≠ m.read a) : a = b := by
  by_contra hne
  exact h (Memory.read_write_other hne)

/-- A command writes inside the capacity of its destination (R48, R49, R66). -/
theorem dstBuffer_of_writeSpan {job : Job} {a : Nat} (h : job.writeSpan.Has a) : job.dstBuffer.Has a := by
  obtain ⟨dir, dst, dcap, src, slen⟩ := job
  cases dir <;> simp only [Span.Has, Job.writeSpan, Job.dstBuffer, Job.iterations, Job.blen, Job.hlen] at h ⊢ <;> omega

/-- The characters of an iteration of `encode_buffer` lie in its write footprint (R48). -/
theorem encode_writeSpan {job : Job} (hd : job.dir = .encode) {i a : Nat} (hi : i < job.iterations)
    (ha : a = job.dst + 2 * i ∨ a = job.dst + 2 * i + 1) : job.writeSpan.Has a := by
  simp only [Span.Has, Job.writeSpan, hd]
  omega

/-- The byte of an iteration of `decode_buffer` lies in its write footprint (R49). -/
theorem decode_writeSpan {job : Job} (hd : job.dir = .decode) {i : Nat} (hi : i < job.iterations) :
    job.writeSpan.Has (job.dst + i) := by
  simp only [Span.Has, Job.writeSpan, hd]
  omega

/-- A move of a command in flight changes no element outside its write footprint (R48, R49, R52). -/
theorem advanceFlight_writes {s t : State} {f : Flight} {a : Nat} (hok : FlightOk s.params f)
    (h : advanceFlight f s = .next t) (hne : t.mem.read a ≠ s.mem.read a) : f.job.writeSpan.Has a := by
  have hphase := hok.phase
  have hpair := hok.pair
  rcases advanceFlight_cases h with ⟨_, _, rfl⟩ | ⟨_, _, _, rfl⟩ | ⟨_, _, _, rfl⟩ | ⟨_, _, rfl⟩ | ⟨_, hp, _, rfl⟩ |
    ⟨_, hp, _, rfl⟩ | ⟨_, _, hp, _, rfl⟩
  iterate 4 exact absurd rfl hne
  all_goals
    rw [PhaseFits, hp] at hphase
    obtain ⟨hd, hi⟩ := hphase
    obtain rfl := eq_of_read_write_ne hne
  · exact encode_writeSpan hd hi (.inl (by omega))
  · exact encode_writeSpan hd hi (.inr (by omega))
  · exact decode_writeSpan hd hi

/-- A move of a block changes memory only inside the write footprint of the command it has in flight. -/
theorem advance_writes {s t : State} {a : Nat} (hinv : Inv s) (h : advance s = .next t)
    (hne : t.mem.read a ≠ s.mem.read a) : ∃ f, s.flight? = some f ∧ f.job.writeSpan.Has a := by
  unfold advance at h
  split at h
  · exact absurd (Host.Outcome.next.inj h ▸ rfl) hne
  · next f hf => exact ⟨f, hf, advanceFlight_writes (inv_flight hinv hf).1 h hne⟩

/-- A completed instruction changes memory only inside the write footprint of a buffer command (R50, R52). -/
theorem exec_writes {s t : State} {i : Instr} {a : Nat} (h : exec i s = .next t)
    (hne : t.mem.read a ≠ s.mem.read a) : ∃ job, jobOf i = some job ∧ job.writeSpan.Has a := by
  rcases exec_cases h with ⟨_, _, _, rfl⟩ | ⟨job, hj, _, rfl⟩
  · exact absurd rfl hne
  · refine ⟨job, hj, ?_⟩
    by_contra hout
    exact hne (jobResult_other hout)

/-- A command that is begun changes no memory: its accesses are moves of their own (R57). -/
theorem begin_mem {s t : State} {i : Instr} (h : begin i s = .next t) : t.mem = s.mem := by
  rcases begin_cases h with ⟨hj, hx⟩ | ⟨_, _, _, rfl⟩
  · obtain ⟨v, hv⟩ := exec_primitive hj
    exact Host.Outcome.next.inj ((hv s).symm.trans hx) ▸ rfl
  · rfl

/-- Settles O46: of the moves a step can be, three write: a move of a command in flight, a command performed as one
step, and the caller. -/
theorem onlyDestinationsAreWritten : Obligations.OnlyDestinationsAreWritten := by
  unfold Obligations.OnlyDestinationsAreWritten
  intro s t a hinv hstep hne
  rcases step_cases hstep with ⟨_, rfl⟩ | ⟨k, rest, hk, _, ha⟩ | ⟨k, w, rest, i, hin, _, _, hd, hx⟩ |
    ⟨k, w, rest, i, _, _, _, _, hb⟩ | ⟨b, rest, _, rfl⟩ | ⟨b, v, rest, hin, _, _, rfl⟩ | ⟨k, rest, _, _, _, rfl⟩
  · exact absurd rfl hne
  · obtain ⟨f, hf, hw⟩ := advance_writes (inv_taken hinv hk rest) ha hne
    obtain ⟨b, hb, hbf⟩ := flight?_eq_some hf
    obtain ⟨_, _, _, hactive, _⟩ := advance_leavesOthers ha
    obtain ⟨hlo, hhi⟩ := dstBuffer_of_writeSpan hw
    exact .inr ⟨f.job, hlo, hhi, .inl ⟨b, f, hactive ▸ hb, hbf, rfl⟩⟩
  · obtain ⟨job, hj, hw⟩ := exec_writes hx hne
    obtain ⟨_, _, _, hactive, _⟩ := exec_leavesOthers hx
    obtain ⟨hlo, hhi⟩ := dstBuffer_of_writeSpan hw
    exact .inr ⟨job, hlo, hhi, .inr ⟨w, rest, i, hactive ▸ hin, hd, hj⟩⟩
  · exact absurd (congrArg (·.read a) (begin_mem hb)) hne
  · exact absurd rfl hne
  · exact .inl ⟨v, rest, eq_of_read_write_ne hne ▸ hin⟩
  · exact absurd rfl hne

/-! ## The memory as its contents -/

/-- Settles O28: a write to an element and a read of it, and of another. -/
theorem memoryReadAfterWrite : Obligations.MemoryReadAfterWrite := by
  unfold Obligations.MemoryReadAfterWrite
  intro m aw a b v hm
  split
  · next hba => exact hba ▸ Memory.read_write_self hm
  · next hba => exact Memory.read_write_other hba

/-- A canonical list with a cell reads, at that cell's address, a byte that an unlisted address does not (log 3). -/
theorem lookupCell_head_ne_unlisted {a lo hi : Nat} {u : Byte} {l : List Host.Cell}
    (h : cellsWf lo hi ((a, u) :: l) = true) : lookupCell a ((a, u) :: l) ≠ Memory.unlisted := by
  simp only [cellsWf, Bool.and_eq_true, decide_eq_true_eq] at h
  simpa [lookupCell] using h.1.2

/-- Two canonical lists that read the same where the first has its first cell: the second starts no later. -/
theorem head_address_le {a b lo lo' hi hi' : Nat} {u v : Byte} {l l' : List Host.Cell}
    (h : cellsWf lo hi ((a, u) :: l) = true) (h' : cellsWf lo' hi' ((b, v) :: l') = true)
    (hread : lookupCell a ((a, u) :: l) = lookupCell a ((b, v) :: l')) : b ≤ a := by
  by_contra hlt
  refine lookupCell_head_ne_unlisted h (hread.trans ?_)
  simp only [cellsWf, Bool.and_eq_true, decide_eq_true_eq] at h'
  have hne : a ≠ b := by omega
  rw [lookupCell, if_neg hne]
  exact lookupCell_below h'.2 (by omega)

/-- Two canonical lists that read the same everywhere are one list. -/
theorem cells_ext {hi hi' : Nat} : ∀ {l l' : List Host.Cell} {lo lo' : Nat}, cellsWf lo hi l = true →
    cellsWf lo' hi' l' = true → (∀ a, lookupCell a l = lookupCell a l') → l = l'
  | [], [], _, _, _, _, _ => rfl
  | [], _ :: _, _, _, _, h', hread => absurd (hread _).symm (lookupCell_head_ne_unlisted h')
  | _ :: _, [], _, _, h, _, hread => absurd (hread _) (lookupCell_head_ne_unlisted h)
  | (a, u) :: l, (b, v) :: l', lo, lo', h, h', hread => by
    obtain rfl : a = b := Nat.le_antisymm (head_address_le h' h (hread b).symm) (head_address_le h h' (hread a))
    obtain rfl : u = v := by simpa [lookupCell] using hread a
    simp only [cellsWf, Bool.and_eq_true, decide_eq_true_eq] at h h'
    have htail : ∀ c, lookupCell c l = lookupCell c l' := fun c => by
      by_cases hc : c = a
      · rw [hc, lookupCell_below h.2 (Nat.lt_succ_self a), lookupCell_below h'.2 (Nat.lt_succ_self a)]
      · simpa [lookupCell, hc] using hread c
    rw [cells_ext h.2 h'.2 htail]

/-- Settles O29: the sorted cells of a memory are determined by what it reads. -/
theorem memoryIsItsContents : Obligations.MemoryIsItsContents := by
  unfold Obligations.MemoryIsItsContents
  intro m m' aw hm hm' hread
  exact congrArg Memory.mk (cells_ext hm hm' hread)

/-! ## The acceptance of a buffer command -/

/-- The acceptance of a command with no buffer on a device is a matter of its footprints alone (R42, R53, R56). -/
theorem accept_of_clear {s : State} {job : Job} (h : Clear s job) :
    s.accept job = admitSpans s.params.aw job.readSpan job.writeSpan := by
  cases ha : admitSpans s.params.aw job.readSpan job.writeSpan with
  | next x => exact accept_eq_next.mpr ⟨admitSpans_eq_next.mp ha, h⟩
  | fault e => rw [State.accept, ha, andThen_fault]
  | refused r => exact accept_spans_refused ha

/-- Two `encode_buffer` commands with the same bases and the same number of iterations do the same, if no buffer of
either lies on a device (R48, R53). -/
theorem execEncodeBuffer_congr {s : State} {dst hlen hlen' src blen blen' : Nat}
    (hn : min blen (hlen / 2) = min blen' (hlen' / 2))
    (hc : Clear s { dir := .encode, dst, dcap := hlen, src, slen := blen })
    (hc' : Clear s { dir := .encode, dst, dcap := hlen', src, slen := blen' }) :
    execEncodeBuffer dst hlen src blen s = execEncodeBuffer dst hlen' src blen' s := by
  simp only [execEncodeBuffer_eq_runs, accept_of_clear hc, accept_of_clear hc', Job.readSpan, Job.writeSpan,
    Job.iterations, Job.blen, Job.hlen, hn]

/-- Settles O20: the odd slot adds no iteration. -/
theorem encodeOddCapacity : Obligations.EncodeOddCapacity := by
  unfold Obligations.EncodeOddCapacity
  intro s dst m src blen hclear
  have hn : min blen (2 * m / 2) = min blen ((2 * m + 1) / 2) := by omega
  exact execEncodeBuffer_congr hn.symm hclear (clear_of_smaller hclear hn rfl rfl le_rfl (Nat.le_succ _))

/-- The footprints of a command that touches nothing are empty (R42). -/
theorem spans_of_no_iterations {job : Job} (h : job.iterations = 0) :
    job.readSpan.count = 0 ∧ job.writeSpan.count = 0 := by
  obtain ⟨dir, dst, dcap, src, slen⟩ := job
  cases dir <;> exact ⟨by simp only [Job.readSpan, h], by simp only [Job.writeSpan, h]⟩

/-- The footprints of a command that touches memory are not empty (R48, R49). -/
theorem spans_of_iterations {job : Job} (h : 0 < job.iterations) :
    0 < job.readSpan.count ∧ 0 < job.writeSpan.count := by
  obtain ⟨dir, dst, dcap, src, slen⟩ := job
  cases dir <;> simp only [Job.readSpan, Job.writeSpan] <;> omega

/-- A command that touches nothing is ready in every state (R42). -/
theorem ready_of_no_iterations {job : Job} (h : job.iterations = 0) (s : State) : Ready s job := by
  obtain ⟨hr, hw⟩ := spans_of_no_iterations h
  refine ⟨⟨⟨.inl hr, .inl hw, fun hm => ?_⟩, fun hn => ?_⟩, fun k hk => ?_, fun k hk => ?_⟩
  · exact absurd hm.1 (by omega)
  · exact absurd hn (by omega)
  · exact absurd hk (by omega)
  · exact absurd hk (by omega)

/-- A command that touches nothing completes with the response 0 in every state (R42, R133, R153). -/
theorem exec_no_iterations {i : Instr} {job : Job} (hj : jobOf i = some job) (h : job.iterations = 0) (s : State) :
    exec i s = .next (completed s s.mem 0) := by
  have hcount : jobCount job = 0 := by
    unfold jobCount Job.countAt
    cases job.dir <;> simp [h]
  refine (exec_job_eq_next hj).mpr ⟨ready_of_no_iterations h s, ?_⟩
  rw [hcount, jobResult, h]
  rfl

/-- A footprint that is not empty and ends above the top of the space does not fit it (R42). -/
theorem Span.not_fits_of_wraps {sp : Span} {aw : Nat} (hn : 0 < sp.count) (h : 2 ^ aw < sp.base + sp.count) :
    ¬ sp.Fits aw := by
  rintro (h0 | hle)
  · omega
  · exact absurd hle (by omega)

/-- A footprint that wraps is named before anything else (R42; log 7). -/
theorem admitSpans_wraps {aw : Nat} {x y : Span} (h : ¬ x.Fits aw ∨ ¬ y.Fits aw) :
    ∃ kind, admitSpans aw x y = .refused (.footprintWraps kind) := by
  unfold admitSpans
  split
  · exact ⟨.read, rfl⟩
  · next hx => exact ⟨.write, if_pos (h.resolve_left hx)⟩

/-- Footprints that fit and meet are refused as overlapping (R56; log 7). -/
theorem admitSpans_overlap {aw : Nat} {x y : Span} (hx : x.Fits aw) (hy : y.Fits aw) (h : x.Meets y) :
    admitSpans aw x y = .refused .footprintsOverlap := by
  unfold admitSpans
  rw [if_neg (not_not.mpr hx), if_neg (not_not.mpr hy), if_pos h]

/-- Settles O30: the acceptance finds the wrap first; with no iteration there is none to find. -/
theorem wrappingFootprintIsRefused : Obligations.WrappingFootprintIsRefused := by
  unfold Obligations.WrappingFootprintIsRefused
  intro s i job hj
  refine ⟨fun ⟨hn, hwraps⟩ => ?_, fun hn => exec_no_iterations hj hn s⟩
  obtain ⟨hr, hw⟩ := spans_of_iterations hn
  obtain ⟨kind, hk⟩ := admitSpans_wraps (hwraps.imp (Span.not_fits_of_wraps hr) (Span.not_fits_of_wraps hw))
  exact ⟨kind, exec_job_refused hj (accept_spans_refused hk)⟩

/-- A buffer command that is not acceptable is refused alike in both step granularities (R42, R53, R56). -/
theorem refused_of_not_acceptable {s : State} {i : Instr} {job : Job} (hj : jobOf i = some job)
    (h : ¬ Acceptable s job) : ∃ r, exec i s = .refused r ∧ begin i s = .refused r := by
  rcases accept_cases s job with ha | ⟨r, hr⟩
  · exact absurd (accept_eq_next.mp ha) h
  · exact ⟨r, exec_job_refused hj hr, by rw [begin_job hj, hr, andThen_refused]⟩

/-- A placed buffer command is not refused for an overlap, whatever else stops it (R56; log 7). -/
theorem exec_placed_ne_overlap {s : State} {i : Instr} {job : Job} (hj : jobOf i = some job)
    (hp : Placed s.params.aw job) : exec i s ≠ .refused .footprintsOverlap := by
  intro hx
  by_cases hc : Clear s job
  · have hends := exec_job_ends hj ⟨hp, hc⟩
    rw [hx] at hends
    exact hends
  · obtain ⟨kind, hk⟩ := accept_placed_refused hp hc
    cases hx.symm.trans (exec_job_refused hj hk)

/-- Settles O31: footprints that share an address meet, and what is placed is not refused so. -/
theorem overlappingFootprintsAreRefused : Obligations.OverlappingFootprintsAreRefused := by
  unfold Obligations.OverlappingFootprintsAreRefused
  intro s i job hj
  rw [← Span.meets_iff]
  refine ⟨fun hm => ?_, fun hr hw => ⟨fun hm => ?_, fun hx => ?_⟩, fun hn hm => ?_⟩
  · obtain ⟨r, hr, _⟩ := refused_of_not_acceptable (s := s) hj fun ⟨⟨_, _, hdisjoint⟩, _⟩ => hdisjoint hm
    exact ⟨r, hr⟩
  · exact exec_job_refused hj (accept_spans_refused (admitSpans_overlap hr hw hm))
  · by_contra hm
    exact exec_placed_ne_overlap hj ⟨hr, hw, hm⟩ hx
  · obtain ⟨⟨⟨_, _, hdisjoint⟩, _⟩, _⟩ := ready_of_no_iterations hn s
    exact hdisjoint hm

/-- Settles O32: where the command is ready it completes, and it completes nowhere else. -/
theorem bufferCommandCompletesIffReady : Obligations.BufferCommandCompletesIffReady := by
  unfold Obligations.BufferCommandCompletesIffReady
  intro s i job hj
  constructor
  · rintro ⟨t, ht⟩
    obtain ⟨hready, _⟩ := (exec_job_eq_next hj).mp ht
    exact hready
  · exact fun hready => ⟨_, (exec_job_eq_next hj).mpr ⟨hready, rfl⟩⟩

/-- A command that touches memory and has a buffer element on a device register is not clear of devices (R53). -/
theorem not_clear_of_device {s : State} {job : Job} {a : Nat} (hn : 0 < job.iterations)
    (ha : job.srcBuffer.Has a ∨ job.dstBuffer.Has a) (hd : s.deviceAt a = true) : ¬ Clear s job := by
  intro hc
  obtain ⟨hsrc, hdst⟩ := hc hn
  rcases ha with ha | ha <;> obtain ⟨k, hk, rfl⟩ := ha.exists_offset
  · exact Bool.false_ne_true ((hsrc k hk).symm.trans hd)
  · exact Bool.false_ne_true ((hdst k hk).symm.trans hd)

/-- Settles O55: such a command is not acceptable, and where it is placed the device is what refuses it. -/
theorem bufferOnDeviceIsRefused : Obligations.BufferOnDeviceIsRefused := by
  unfold Obligations.BufferOnDeviceIsRefused
  intro s i job a hj hn ha hd
  have hclear := not_clear_of_device hn ha hd
  refine ⟨refused_of_not_acceptable hj fun ⟨_, hc⟩ => hclear hc, fun hp => ?_⟩
  obtain ⟨kind, hk⟩ := accept_placed_refused hp hclear
  exact ⟨kind, exec_job_refused hj hk⟩

/-! ## Races (R58) -/

/-- An access races with a block's command in flight if it touches what that writes, or writes what it reads. -/
theorem Block.races_iff {b : Block} {kind : AccessKind} {a : Nat} : b.races kind a = true ↔
    ∃ f, b.flight = some f ∧ (f.job.writeSpan.Has a ∨ kind = .write ∧ f.job.readSpan.Has a) := by
  unfold Block.races
  cases b.flight with
  | none => simp
  | some f => simp only [Option.some.injEq, exists_eq_left', Bool.or_eq_true, Bool.and_eq_true, decide_eq_true_eq]

/-- An access races if it races with the command in flight at one of the other agents' blocks. -/
theorem State.raced_iff {s : State} {who : Option Nat} {kind : AccessKind} {a : Nat} : s.raced who kind a = true ↔
    ∃ b ∈ s.othersThan who, ∃ f, b.flight = some f ∧
      (f.job.writeSpan.Has a ∨ kind = .write ∧ f.job.readSpan.Has a) := by
  simp only [State.raced, List.any_eq_true, Block.races_iff]

/-- The other agents' blocks are blocks of the machine (R181). -/
theorem mem_blocks_of_othersThan {s : State} {who : Option Nat} {b : Block} (h : b ∈ s.othersThan who) :
    b ∈ s.blocks := by
  cases who with
  | none => exact h
  | some k => exact List.mem_of_mem_eraseIdx h

/-- Every block but the one at `k` is another agent's than that one's (R181). -/
theorem mem_othersThan {s : State} {j k : Nat} {b : Block} (hb : s.blocks[j]? = some b) (hjk : j ≠ k) :
    b ∈ s.othersThan (some k) :=
  List.mem_eraseIdx_iff_getElem?.mpr ⟨j, hjk, hb⟩

/-- Where no command is in flight, no access races. -/
theorem raced_of_no_flight {s : State} (h : ∀ b ∈ s.blocks, b.flight = none) (who : Option Nat) (kind : AccessKind)
    (a : Nat) : s.raced who kind a = false := by
  by_contra hr
  obtain ⟨b, hb, f, hf, _⟩ := State.raced_iff.mp (Bool.not_eq_false _ ▸ hr)
  cases (h b (mem_blocks_of_othersThan hb)).symm.trans hf

/-- An access that may be made races with nothing. -/
theorem not_raced_of_mayAccess {s : State} {kind : AccessKind} {a : Nat} (h : mayAccess s kind a = true) :
    s.raced (some s.active) kind a = false := by
  simp only [mayAccess, Bool.and_eq_true, Bool.not_eq_true'] at h
  exact h.1

/-- Where no region is a device, no buffer lies on one (R53). -/
theorem clear_of_plain {s : State} (h : ∀ r ∈ s.regions, r.kind = .plain) (job : Job) : Clear s job := by
  have hnone (a : Nat) : s.deviceAt a = false := by
    by_contra hd
    obtain ⟨r, hr, hk⟩ := deviceAt_region (Bool.not_eq_false _ ▸ hd)
    cases (h r hr).symm.trans hk
  exact fun _ => ⟨fun _ _ => hnone _, fun _ _ => hnone _⟩

/-- Without commands in flight and devices, an access stops only at an address that is not admitted (R55). -/
theorem notAdmitted_of_accessEnds {s : State} {r : Res State} (hf : ∀ b ∈ s.blocks, b.flight = none)
    (hp : ∀ r ∈ s.regions, r.kind = .plain) (h : AccessEnds s r) (hnext : ∀ t, r ≠ .next t) :
    ∃ kind a, r = .fault (.notAdmitted kind a) ∧ mayAccess s kind a = false := by
  cases r with
  | next t => exact absurd rfl (hnext t)
  | fault e =>
    obtain ⟨kind, a⟩ := e
    exact ⟨kind, a, rfl, h⟩
  | refused e =>
    cases e with
    | race kind a => exact absurd ((raced_of_no_flight hf _ kind a).symm.trans h) Bool.false_ne_true
    | deviceAccess a =>
      obtain ⟨r, hr, hk⟩ := h
      cases (hp r hr).symm.trans hk
    | _ => exact absurd h not_false

/-- Settles O33: the accesses are all that can stop the command. -/
theorem unadmittedAccessIsStuck : Obligations.UnadmittedAccessIsStuck := by
  unfold Obligations.UnadmittedAccessIsStuck
  intro s i job hj hplaced hflight hplain
  have hacc : Acceptable s job := ⟨hplaced, clear_of_plain hplain job⟩
  split
  · next hmay => exact ⟨_, (exec_job_eq_next hj).mpr ⟨⟨hacc, hmay⟩, rfl⟩⟩
  · next hmay =>
    refine notAdmitted_of_accessEnds hflight hplain (exec_job_ends hj hacc) fun t ht => hmay ?_
    obtain ⟨⟨_, hadmitted⟩, _⟩ := (exec_job_eq_next hj).mp ht
    exact hadmitted

/-- Settles O35: a command that completes was ready, and none of its accesses races. -/
theorem racingCommandDoesNotComplete : Obligations.RacingCommandDoesNotComplete := by
  unfold Obligations.RacingCommandDoesNotComplete
  intro s t i job k a b f hj hb hk hf hrace hx
  obtain ⟨⟨_, hread, hwrite⟩, _⟩ := (exec_job_eq_next hj).mp hx
  have hfree {kind : AccessKind} (hmay : mayAccess s kind a = true) :
      ¬ (f.job.writeSpan.Has a ∨ kind = .write ∧ f.job.readSpan.Has a) := fun h =>
    Bool.false_ne_true ((not_raced_of_mayAccess hmay).symm.trans
      (State.raced_iff.mpr ⟨b, mem_othersThan hb hk, f, hf, h⟩))
  rcases hrace with ⟨ha, hfoot⟩ | ⟨ha, hfoot⟩ <;> obtain ⟨j, hj, rfl⟩ := ha.exists_offset
  · exact hfree (hwrite j hj) (hfoot.symm.imp_right fun h => ⟨rfl, h⟩)
  · exact hfree (hread j hj) (.inl hfoot)

/-! ## The caller's accesses -/

/-- A caller's access that races is refused as a race, whatever lies at the address (R58; log 7). -/
theorem callerAccess_raced {s : State} {kind : AccessKind} {a : Nat} (ha : a < 2 ^ s.params.aw)
    (h : s.raced none kind a = true) : s.callerAccess kind a = .refused (.race kind a) := by
  rw [State.callerAccess, if_neg (Nat.not_le.mpr ha), if_pos h]

/-- A caller's access that does not race is stopped by a device alone (R53; log 4). -/
theorem callerAccess_not_raced {s : State} {kind : AccessKind} {a : Nat} (ha : a < 2 ^ s.params.aw)
    (h : s.raced none kind a = false) :
    s.callerAccess kind a = if s.deviceAt a then .refused (.deviceAccess a) else .next () := by
  rw [State.callerAccess, if_neg (Nat.not_le.mpr ha), h, if_neg Bool.false_ne_true]

/-- A caller's access that does not race, at an address where no device lies, may be made (R53, R58; log 4). -/
theorem callerAccess_allowed {s : State} {kind : AccessKind} {a : Nat} (ha : a < 2 ^ s.params.aw)
    (h : s.raced none kind a = false) (hp : ∀ r, s.regionAt a = some r → r.kind = .plain) :
    s.callerAccess kind a = .next () := by
  have hd : s.deviceAt a = false := by
    unfold State.deviceAt
    cases hr : s.regionAt a with
    | none => rfl
    | some r => simp [hp r hr]
  rw [callerAccess_not_raced ha h, hd, if_neg Bool.false_ne_true]

/-- The step of a caller's read is that access alone (R53). -/
theorem step_callerRead (s : State) (a : Nat) (rest : List Event) :
    step { s with inbox := .callerRead a :: rest }
      = andThen (s.callerAccess .read a) fun _ => .next { s with inbox := rest } := rfl

/-- The step of a caller's write is that access and the replacement of the element (R43). -/
theorem step_callerWrite (s : State) (a : Nat) (v : Byte) (rest : List Event) :
    step { s with inbox := .callerWrite a v :: rest }
      = andThen (s.callerAccess .write a) fun _ => .next { s with mem := s.mem.write a v, inbox := rest } := rfl

/-- Settles O34: the caller's access is held against the footprints of every block. -/
theorem callerRaceIsRefused : Obligations.CallerRaceIsRefused := by
  unfold Obligations.CallerRaceIsRefused
  intro s a v rest ha
  refine ⟨fun ⟨b, hb, f, hf, hfoot⟩ => ?_, fun ⟨b, hb, f, hf, hfoot⟩ => ?_, fun hfree => ?_⟩
  · have hraced : s.raced none .write a = true :=
      State.raced_iff.mpr ⟨b, hb, f, hf, hfoot.symm.imp_right fun h => ⟨rfl, h⟩⟩
    rw [step_callerWrite, callerAccess_raced ha hraced, andThen_refused]
  · have hraced : s.raced none .read a = true := State.raced_iff.mpr ⟨b, hb, f, hf, .inl hfoot⟩
    rw [step_callerRead, callerAccess_raced ha hraced, andThen_refused]
  · have hraced : s.raced none .read a = false := by
      by_contra hr
      obtain ⟨b, hb, f, hf, hw | ⟨hkind, _⟩⟩ := State.raced_iff.mp (Bool.not_eq_false _ ▸ hr)
      · exact hfree b hb f hf hw
      · cases hkind
    rw [step_callerRead, callerAccess_not_raced ha hraced]
    split <;> simp

/-- Settles O50: the access is allowed, and the write does what R43 says. -/
theorem callerWriteCompletes : Obligations.CallerWriteCompletes := by
  unfold Obligations.CallerWriteCompletes
  intro s a v rest hm ha hraced hplain
  refine ⟨s.mem.write a v, ?_, Memory.read_write_self hm, fun b hb => Memory.read_write_other hb⟩
  rw [step_callerWrite, callerAccess_allowed ha hraced hplain, andThen_next]

/-- Settles O51: the access is allowed, and it changes nothing. -/
theorem callerReadChangesNothing : Obligations.CallerReadChangesNothing := by
  unfold Obligations.CallerReadChangesNothing
  intro s a rest ha hraced hplain
  rw [step_callerRead, callerAccess_allowed ha hraced hplain, andThen_next]

/-! ## Steps that give a block its turn -/

/-- Settles O36: an idle block runs the word it is offered. -/
theorem stepRunsTheCommand : Obligations.StepRunsTheCommand := by
  unfold Obligations.StepRunsTheCommand
  intro s k w rest i hinbox hk hb hd
  rw [step, stepEvent, hinbox]
  exact offerCommand_idle rest exec hk hb hd

/-- A block with no command in flight makes no move (R183). -/
theorem advance_idle {s : State} (h : s.flight? = none) : advance s = .next s := by
  rw [advance, h]

/-- Settles O53: the tick of an existing block is its move. -/
theorem tickMovesTheBlock : Obligations.TickMovesTheBlock := by
  unfold Obligations.TickMovesTheBlock
  intro s k rest hinbox hk
  have hstep : step s = advance (s.taken k rest) := by
    rw [step, stepEvent, hinbox]
    exact if_neg (Nat.not_le.mpr hk)
  refine ⟨hstep, fun hidle => hstep.trans (advance_idle ?_)⟩
  exact Option.isSome_eq_false_iff.mp hidle |> Option.isNone_iff_eq_none.mp

/-! ## A buffer command as a run of iterations -/

/-- The body of the loop of a buffer command at indices `i` and `j` (R131, R151). -/
def iterationBody (job : Job) (i j : Nat) (s : State) : Res State :=
  match job.dir with
  | .encode => encodeBody job.dst job.src i j s
  | .decode => decodeBody job.dst job.src i j s

/-- An iteration that answers changes the memory alone. -/
theorem iterationBody_eq_next {job : Job} {i j : Nat} {s t : State} (h : iterationBody job i j s = .next t) :
    ∃ m, t = { s with mem := m } := by
  unfold iterationBody at h
  split at h
  · simp only [encodeBody, andThen_eq_next, store_eq_next] at h
    obtain ⟨_, _, _, ⟨_, rfl⟩, _, rfl⟩ := h
    exact ⟨_, rfl⟩
  · simp only [decodeBody, andThen_eq_next, store_eq_next] at h
    obtain ⟨_, _, _, _, _, rfl⟩ := h
    exact ⟨_, rfl⟩

/-- An iteration is nothing to what the moving block holds. -/
theorem iterationBody_onActive (job : Job) (i j : Nat) (s : State) (g : Block → Block) :
    iterationBody job i j (s.onActive g) = andThen (iterationBody job i j s) fun t => .next (t.onActive g) := by
  unfold iterationBody
  split
  · simp only [encodeBody, load_onActive, store_onActive, andThen_assoc, andThen_next]
  · simp only [decodeBody, load_onActive, store_onActive, andThen_assoc]

/-- Many iterations are nothing to what the moving block holds. -/
theorem runs_onActive (job : Job) (g : Block → Block) : ∀ (c i : Nat) (s : State),
    runs (fun k => iterationBody job k (2 * k)) i c (s.onActive g)
      = andThen (runs (fun k => iterationBody job k (2 * k)) i c s) fun t => .next (t.onActive g)
  | 0, _, _ => rfl
  | c + 1, i, s => by
    simp only [runs, iterationBody_onActive, andThen_assoc, andThen_next, runs_onActive job g c]

/-- Both buffer commands are: the acceptance, `n` iterations, the delivery of the count (R131, R133, R151, R153). -/
theorem exec_job_eq_runs {i : Instr} {job : Job} (hj : jobOf i = some job) (s : State) :
    exec i s = andThen (s.accept job) fun _ =>
      andThen (runs (fun k => iterationBody job k (2 * k)) 0 job.iterations s) fun t =>
        .next (t.deliver (jobCount job)) := by
  cases i <;> cases hj
  · exact execEncodeBuffer_eq_runs _ _ _ _ s
  · exact execDecodeBuffer_eq_runs _ _ _ _ s

/-! ## The moves of a command in flight -/

/-- A delivery leaves nothing of what the moving block held (R27, R78). -/
theorem deliver_onActive (s : State) (g : Block → Block) (v : Nat) : (s.onActive g).deliver v = s.deliver v :=
  s.onActive_onActive g _

/-- A move goes by the command in flight it is given, not by the one the moving block has on record. -/
theorem advanceFlight_setFlight (f g : Flight) (s : State) :
    advanceFlight f (s.setFlight g) = advanceFlight f s := by
  have hload (a : Nat) : (s.setFlight g).load a = s.load a := load_onActive s _ a
  have hstore (a : Nat) (v : Byte) :
      (s.setFlight g).store a v = andThen (s.store a v) fun t => .next (t.setFlight g) := store_onActive s _ a v
  have hdeliver (v : Nat) : (s.setFlight g).deliver v = s.deliver v := deliver_onActive s _ v
  unfold advanceFlight
  simp only [hload, hstore, hdeliver, andThen_assoc, andThen_next, State.setFlight_setFlight]

/-- A move of a block with a command in flight is the next access of that command (R57). -/
theorem advance_busy {s : State} {f : Flight} (h : s.flight? = some f) : advance s = advanceFlight f s := by
  rw [advance, h]

/-- The move after a command in flight was recorded is that command's (R57). -/
theorem advance_setFlight {s : State} (f : Flight) (h : s.active < s.blocks.length) :
    advance (s.setFlight f) = advanceFlight f s := by
  rw [advance_busy (s.setFlight_flight? f h), advanceFlight_setFlight]

/-- A write leaves the moving block in place. -/
theorem active_lt_of_store {s t : State} {a : Nat} {v : Byte} (h : s.store a v = .next t)
    (hs : s.active < s.blocks.length) : t.active < t.blocks.length := by
  obtain ⟨_, rfl⟩ := store_eq_next.mp h
  exact hs

/-- Moves in a row are moves after moves. -/
theorem advanceBy_add : ∀ (k l : Nat) (s : State), advanceBy (k + l) s = andThen (advanceBy k s) (advanceBy l)
  | 0, l, s => by rw [Nat.zero_add, advanceBy, andThen_next]
  | k + 1, l, s => by
    rw [Nat.succ_add, advanceBy, advanceBy, andThen_assoc]
    exact andThen_congr fun t _ => advanceBy_add k l t

/-- Three moves from the head of an iteration are the body of the loop and the step of the indices (R57). -/
theorem advanceBy_iteration {s : State} {f : Flight} (hs : s.active < s.blocks.length) (hf : s.flight? = some f)
    (hp : f.phase = .fetch) (hl : loopTest f.i f.job.blen f.j f.job.hlen = true) :
    advanceBy 3 s = andThen (iterationBody f.job f.i f.j s) fun t =>
      .next (t.setFlight { f with i := f.i + 1, j := f.j + 2, phase := .fetch }) := by
  have hfetch : advanceBy 3 s = andThen (advanceFlight f s) (advanceBy 2) := by rw [advanceBy, advance_busy hf]
  rw [hfetch, advanceFlight, hp, iterationBody]
  simp only [hl, if_true]
  cases hd : f.job.dir
  · simp only [encodeBody, andThen_assoc, andThen_next]
    refine andThen_congr fun b _ => ?_
    rw [advanceBy, advance_setFlight _ hs, advanceFlight, andThen_assoc]
    refine andThen_congr fun t ht => ?_
    rw [andThen_next, advanceBy, advance_setFlight _ (active_lt_of_store ht hs), advanceFlight, andThen_assoc]
    rfl
  · simp only [decodeBody, andThen_assoc, andThen_next]
    refine andThen_congr fun hi _ => ?_
    rw [advanceBy, advance_setFlight _ hs, advanceFlight, andThen_assoc]
    refine andThen_congr fun lo _ => ?_
    rw [andThen_next, advanceBy, advance_setFlight _ hs, advanceFlight, andThen_assoc]
    rfl

/-- Settles O44: the body of the loop is the accesses of the rule in their order. -/
theorem iterationAccessOrder : Obligations.IterationAccessOrder := by
  unfold Obligations.IterationAccessOrder
  intro s f hs hf hp hl
  rw [advanceBy_iteration hs hf hp hl, iterationBody]
  cases f.job.dir <;> rfl

/-- From the head of iteration `i`, the moves that are left make the iterations that are left and deliver the count
(R57, R59). -/
theorem advanceBy_run (job : Job) : ∀ (c i : Nat) (s : State), s.active < s.blocks.length →
    s.flight? = some { job, i, j := 2 * i, phase := .fetch } → i + c = job.iterations →
    advanceBy (3 * c + 1) s
      = andThen (runs (fun k => iterationBody job k (2 * k)) i c s) fun t => .next (t.deliver (jobCount job))
  | 0, i, s, _, hf, hi => by
    obtain rfl : i = job.iterations := hi
    have hend : loopTest job.iterations job.blen (2 * job.iterations) job.hlen = false :=
      Bool.eq_false_iff.mpr fun hl => absurd (loopTest_eq_true.mp hl) (Nat.lt_irrefl _)
    simp only [advanceBy, advance_busy hf, advanceFlight, hend, Bool.false_eq_true, if_false, andThen_next, runs]
    rfl
  | c + 1, i, s, hs, hf, hi => by
    have hlt : i < job.iterations := by omega
    rw [show 3 * (c + 1) + 1 = 3 + (3 * c + 1) by omega, advanceBy_add,
      advanceBy_iteration hs hf rfl (loopTest_eq_true.mpr hlt), runs, andThen_assoc, andThen_assoc]
    refine andThen_congr fun t ht => ?_
    obtain ⟨m, rfl⟩ := iterationBody_eq_next ht
    have hrest := advanceBy_run job c (i + 1) (({ s with mem := m } : State).setFlight
      { job, i := i + 1, j := 2 * (i + 1), phase := .fetch }) (by simpa using hs)
      (State.setFlight_flight? _ _ hs) (by omega)
    refine hrest.trans ?_
    rw [State.setFlight, runs_onActive, andThen_assoc]
    simp only [andThen_next, deliver_onActive]

/-- A launched command is at the head of its first iteration (R30). -/
theorem launch_flight? (s : State) (job : Job) (h : s.active < s.blocks.length) :
    (s.launch job).flight? = some { job, i := 0, j := 0, phase := .fetch } :=
  s.onActive_flight? _ h

/-- Settles O43: both ways accept alike, make the same iterations and deliver the same count. -/
theorem atomicStepEqualsAccessByAccess : Obligations.AtomicStepEqualsAccessByAccess := by
  unfold Obligations.AtomicStepEqualsAccessByAccess
  intro s i job hj hs _
  rw [exec_job_eq_runs hj, begin_job hj, andThen_assoc]
  refine andThen_congr fun _ _ => ?_
  rw [andThen_next, advanceBy_run job job.iterations 0 _ (by simpa using hs) (launch_flight? s job hs)
    (Nat.zero_add _), State.launch, runs_onActive, andThen_assoc]
  simp only [andThen_next, deliver_onActive]

/-! ## How far a command in flight has come -/

/-- The moves of its iteration that a command in flight has made (R57). -/
def Phase.moves : Phase → Nat
  | .fetch => 0
  | .highOut _ => 1
  | .lowOut _ => 2
  | .lowIn _ => 1
  | .byteOut _ _ => 2

/-- The moving block has made `m` moves of `job` and has it still in flight, with no response pending (R30, R59). -/
structure UnderWay (job : Job) (m : Nat) (s : State) : Prop where
  active : s.active < s.blocks.length
  rsp : s.response s.active = none
  flight : ∃ f, s.flight? = some f ∧ f.job = job ∧ f.j = 2 * f.i ∧ PhaseFits f ∧ 3 * f.i + f.phase.moves = m

/-- A command just launched has made no move. -/
theorem underWay_launch (s : State) (job : Job) (h : s.active < s.blocks.length) :
    UnderWay job 0 (s.launch job) where
  active := by simpa using h
  rsp := by simp [State.response, List.getElem?_modify_eq, List.getElem?_eq_getElem h]
  flight := ⟨_, launch_flight? s job h, rfl, rfl, trivial, rfl⟩

/-- A command that goes on in flight, its progress recorded beside a write to memory. -/
theorem UnderWay.record {job : Job} {m m' : Nat} {s : State} {mem : Memory} {g : Flight} (h : UnderWay job m s)
    (hjob : g.job = job) (hpair : g.j = 2 * g.i) (hphase : PhaseFits g) (hm : 3 * g.i + g.phase.moves = m') :
    UnderWay job m' (({ s with mem := mem } : State).setFlight g) where
  active := by simpa using h.active
  rsp := by
    have hrsp := h.rsp
    simp only [State.response, List.getElem?_eq_getElem h.active] at hrsp
    simpa [State.response, List.getElem?_modify_eq, List.getElem?_eq_getElem h.active] using hrsp
  flight := ⟨g, State.setFlight_flight? _ _ h.active, hjob, hpair, hphase, hm⟩

/-- Before its last iteration is over, a move of a command leaves it in flight (R59). -/
theorem UnderWay.move {job : Job} {m : Nat} {s t : State} (h : UnderWay job m s) (hm : m < 3 * job.iterations)
    (ha : advance s = .next t) : UnderWay job (m + 1) t := by
  obtain ⟨f, hf, hjob, hpair, hphase, hmoves⟩ := h.flight
  rw [advance_busy hf] at ha
  have hloop (hl : loopTest f.i f.job.blen f.j f.job.hlen = true) : f.i < f.job.iterations :=
    loopTest_eq_true.mp (hpair ▸ hl)
  rcases advanceFlight_cases ha with ⟨hp, hl, rfl⟩ | ⟨hp, hl, hd, rfl⟩ | ⟨hp, hl, hd, rfl⟩ | ⟨_, hp, rfl⟩ |
    ⟨_, hp, _, rfl⟩ | ⟨_, hp, _, rfl⟩ | ⟨_, _, hp, _, rfl⟩
  all_goals rw [hp, Phase.moves] at hmoves
  · have hi : f.i < f.job.iterations := by rw [hjob]; omega
    exact absurd (hl.symm.trans (hpair ▸ loopTest_eq_true.mpr hi)) Bool.false_ne_true
  · exact h.record hjob hpair ⟨hd, hloop hl⟩ (congrArg (· + 1) hmoves)
  · exact h.record hjob hpair ⟨hd, hloop hl⟩ (congrArg (· + 1) hmoves)
  all_goals rw [PhaseFits, hp] at hphase
  · exact h.record hjob hpair hphase (congrArg (· + 1) hmoves)
  · exact h.record hjob hpair hphase (congrArg (· + 1) hmoves)
  · exact h.record hjob (by dsimp only; omega) trivial (by dsimp only [Phase.moves]; omega)
  · exact h.record hjob (by dsimp only; omega) trivial (by dsimp only [Phase.moves]; omega)

/-- As many moves later, no more than its iterations have, a command is still in flight. -/
theorem UnderWay.moves {job : Job} : ∀ {k m : Nat} {s t : State}, UnderWay job m s → m + k ≤ 3 * job.iterations →
    advanceBy k s = .next t → UnderWay job (m + k) t
  | 0, _, _, _, h, _, ha => Host.Outcome.next.inj ha ▸ h
  | k + 1, m, s, t, h, hm, ha => by
    obtain ⟨x, hx, hrest⟩ := andThen_eq_next.mp ha
    have := UnderWay.moves (h.move (by omega) hx) (by omega) hrest
    rwa [Nat.add_assoc, Nat.add_comm 1 k] at this

/-- After the moves of its iterations, the next move of a command delivers its count (R59). -/
theorem UnderWay.deliver {job : Job} {s t : State} (h : UnderWay job (3 * job.iterations) s)
    (ha : advance s = .next t) : t = s.deliver (jobCount job) := by
  obtain ⟨⟨job', i, j, phase⟩, hf, hjob, hpair, _, hmoves⟩ := h.flight
  dsimp only at hjob hpair
  subst hjob hpair
  cases phase <;> simp only [Phase.moves] at hmoves
  case fetch =>
    obtain rfl : i = job'.iterations := by omega
    have hrun := advanceBy_run job' 0 job'.iterations s h.active hf rfl
    rw [Nat.mul_zero, advanceBy, ha, andThen_next] at hrun
    exact Host.Outcome.next.inj hrun
  all_goals omega

/-- A delivery ends the flight of the command (R59). -/
theorem deliver_flight? (s : State) (v : Nat) (h : s.active < s.blocks.length) : (s.deliver v).flight? = none :=
  s.onActive_flight? _ h

/-- Moves in a row are all the same block's. -/
theorem advanceBy_active : ∀ {k : Nat} {s t : State}, advanceBy k s = .next t → t.active = s.active
  | 0, _, _, h => Host.Outcome.next.inj h ▸ rfl
  | k + 1, s, t, h => by
    obtain ⟨x, hx, hrest⟩ := andThen_eq_next.mp h
    obtain ⟨_, _, _, hactive, _⟩ := advance_leavesOthers hx
    exact (advanceBy_active hrest).trans hactive

/-- Settles O45: `3n` moves leave the command under way, and the next one delivers its count. -/
theorem flightEndsAfterItsIterations : Obligations.FlightEndsAfterItsIterations := by
  unfold Obligations.FlightEndsAfterItsIterations
  intro s u t i job m hj hs hb hadv
  obtain ⟨_, _, hu⟩ := andThen_eq_next.mp ((begin_job hj s).symm.trans hb)
  obtain rfl := Host.Outcome.next.inj hu
  have hway {k : Nat} {x : State} (hk : k ≤ 3 * job.iterations) (hx : advanceBy k (s.launch job) = .next x) :
      UnderWay job k x := Nat.zero_add k ▸ UnderWay.moves (underWay_launch s job hs) (by omega) hx
  refine ⟨fun hm => ?_, fun hm => ?_⟩
  · obtain ⟨_, hrsp, f, hf, _⟩ := hway hm hadv
    have hactive : t.active = s.active := (advanceBy_active hadv :)
    exact ⟨hf ▸ rfl, hactive ▸ hrsp⟩
  · rw [hm, advanceBy_add] at hadv
    obtain ⟨x, hx, hlast⟩ := andThen_eq_next.mp hadv
    obtain ⟨y, hy, hend⟩ := andThen_eq_next.mp hlast
    obtain rfl := Host.Outcome.next.inj hend
    have hx' := hway le_rfl hx
    have hactive : x.active = s.active := (advanceBy_active hx :)
    obtain rfl := hx'.deliver hy
    exact ⟨deliver_flight? x _ hx'.active, hactive ▸ State.deliver_response x _ hx'.active⟩
end Sys2Proof.Machine

/-! # The command word, and the acceptance of what it decodes to -/

namespace Sys2Proof

/-! ## The fields of a packed word -/

section Fields
variable {p : Params} {op : Nat} {a : Byte} {dst dcap src slen : Nat}

/-- Field `a` of a packed word (R71). -/
theorem aField_packWord (ho : op < 2 ^ 3) : aField (packWord p op a dst dcap src slen) = a := by
  have h : bitsAt (packWord p op a dst dcap src slen) 3 8 = a.toNat :=
    bitsAt_of_split (above := dst + dcap * 2 ^ p.aw + src * 2 ^ (p.aw + p.lw) + slen * 2 ^ (2 * p.aw + p.lw))
      ho a.isLt (by unfold packWord; ring)
  rw [aField, h, BitVec.ofNat_toNat, BitVec.setWidth_eq]

/-- Field `dst` of a packed word (R71). -/
theorem dstField_packWord (ho : op < 2 ^ 3) (hdst : dst < 2 ^ p.aw) :
    dstField p (packWord p op a dst dcap src slen) = dst :=
  bitsAt_of_split (above := dcap + src * 2 ^ p.lw + slen * 2 ^ (p.aw + p.lw))
    (add_field_lt ho a.isLt) hdst (by unfold packWord; ring)

/-- Field `dcap` of a packed word (R71). -/
theorem dcapField_packWord (ho : op < 2 ^ 3) (hdst : dst < 2 ^ p.aw) (hdcap : dcap < 2 ^ p.lw) :
    dcapField p (packWord p op a dst dcap src slen) = dcap :=
  bitsAt_of_split (above := src + slen * 2 ^ p.aw)
    (add_field_lt (add_field_lt ho a.isLt) hdst) hdcap (by unfold packWord; ring)

/-- Field `src` of a packed word (R71). -/
theorem srcField_packWord (ho : op < 2 ^ 3) (hdst : dst < 2 ^ p.aw) (hdcap : dcap < 2 ^ p.lw)
    (hsrc : src < 2 ^ p.aw) : srcField p (packWord p op a dst dcap src slen) = src :=
  bitsAt_of_split (above := slen)
    (add_field_lt (add_field_lt (add_field_lt ho a.isLt) hdst) hdcap) hsrc (by unfold packWord; ring)

/-- Field `slen` of a packed word (R71). -/
theorem slenField_packWord (ho : op < 2 ^ 3) (hf : p.FieldsFit dst dcap src slen) :
    slenField p (packWord p op a dst dcap src slen) = slen := by
  obtain ⟨hdst, hdcap, hsrc, hslen⟩ := hf
  have hbelow := add_field_lt (add_field_lt (add_field_lt (add_field_lt ho a.isLt) hdst) hdcap) hsrc
  rw [show 3 + 8 + p.aw + p.lw + p.aw = 11 + 2 * p.aw + p.lw by ring] at hbelow
  exact bitsAt_of_split (above := 0) hbelow hslen (by unfold packWord; ring)

end Fields

/-! ## What a command word decodes to -/

/-- A command word decodes by its `op` alone, to the operation with its used fields (R73, R76). -/
theorem decode_commandWord {p : Params} {w : Nat} (hw : w < 2 ^ p.cw) : decode p w =
    if opField w = 0 then .ok (.isHexDigit (aField w))
    else if opField w = 1 then .ok (.nibbleToHexChar (aField w))
    else if opField w = 2 then .ok (.hexCharToNibble (aField w))
    else if opField w = 3 then .ok (.encodeBuffer (dstField p w) (dcapField p w) (srcField p w) (slenField p w))
    else if opField w = 4 then .ok (.decodeBuffer (dstField p w) (dcapField p w) (srcField p w) (slenField p w))
    else .error (.reservedOp (opField w)) := by
  rw [decode, if_neg (Nat.not_le.mpr hw)]
  match opField w with
  | 0 | 1 | 2 | 3 | 4 => rfl
  | _ + 5 => rfl

/-- A number that decodes to an instruction is a command word with that instruction's op-code (R71, R73). -/
theorem opField_of_decode {p : Params} {w : Nat} {i : Instr} (h : decode p w = .ok i) : opField w = i.opcode := by
  have hw : w < 2 ^ p.cw := by
    by_contra hw
    rw [decode, if_pos (Nat.not_lt.mp hw)] at h
    cases h
  rw [decode_commandWord hw] at h
  split_ifs at h with h0 h1 h2 h3 h4 <;> cases h <;> assumption

/-- A command word with op-code 0 to 4 is an instruction (R73, R76). -/
theorem exists_decode_of_op_le_four {p : Params} {w : Nat} (hw : w < 2 ^ p.cw) (hop : opField w ≤ 4) :
    ∃ i, decode p w = .ok i := by
  rw [decode_commandWord hw]
  split_ifs
  case neg => omega
  all_goals exact ⟨_, rfl⟩

/-- A command word with op-code 5, 6 or 7 is none (R76). -/
theorem decode_reservedOp {p : Params} {w : Nat} (hw : w < 2 ^ p.cw) (hop : 5 ≤ opField w) :
    decode p w = .error (.reservedOp (opField w)) := by
  rw [decode_commandWord hw, if_neg (by omega), if_neg (by omega), if_neg (by omega), if_neg (by omega),
    if_neg (by omega)]

/-- The encoding of a well-formed instruction is a command word (R71). -/
theorem encode_lt {p : Params} {i : Instr} (h : i.WellFormed p) : encode p i < 2 ^ p.cw := by
  cases i with
  | isHexDigit c => exact Laws.EncodingFits.isHexDigit c p h
  | nibbleToHexChar v => exact Laws.EncodingFits.nibbleToHexChar v p h
  | hexCharToNibble c => exact Laws.EncodingFits.hexCharToNibble c p h
  | encodeBuffer dst hlen src blen => exact Laws.EncodingFits.encodeBuffer dst hlen src blen p h
  | decodeBuffer dst blen src hlen => exact Laws.EncodingFits.decodeBuffer dst blen src hlen p h

/-- The `op` field of an encoding is the instruction's op-code (R71, R73). -/
theorem opField_encode (p : Params) (i : Instr) : opField (encode p i) = i.opcode := by
  cases i with
  | isHexDigit c => exact Laws.OpField.isHexDigit c p
  | nibbleToHexChar v => exact Laws.OpField.nibbleToHexChar v p
  | hexCharToNibble c => exact Laws.OpField.hexCharToNibble c p
  | encodeBuffer dst hlen src blen => exact Laws.OpField.encodeBuffer dst hlen src blen p
  | decodeBuffer dst blen src hlen => exact Laws.OpField.decodeBuffer dst blen src hlen p

/-- Settles O2: each field of a packed word reads what was packed there. -/
theorem fieldsSelectTheOperation : Obligations.FieldsSelectTheOperation := by
  unfold Obligations.FieldsSelectTheOperation
  intro p op a dst dcap src slen ho hf
  have ⟨hdst, hdcap, hsrc, _⟩ := hf
  have hdecode := decode_commandWord (packWord_lt (a := a) ho hf)
  rwa [opField_packWord ho, aField_packWord ho, dstField_packWord ho hdst, dcapField_packWord ho hdst hdcap,
    srcField_packWord ho hdst hdcap hsrc, slenField_packWord ho hf] at hdecode

/-- Settles O1: an encoding is a packed word whose unused fields are 0. -/
theorem decodeOfEncode : Obligations.DecodeOfEncode := by
  unfold Obligations.DecodeOfEncode
  intro p i hi
  cases i with
  | isHexDigit c => exact fieldsSelectTheOperation p 0 c 0 0 0 0 (by decide) (zerosFit p)
  | nibbleToHexChar v => exact fieldsSelectTheOperation p 1 v 0 0 0 0 (by decide) (zerosFit p)
  | hexCharToNibble c => exact fieldsSelectTheOperation p 2 c 0 0 0 0 (by decide) (zerosFit p)
  | encodeBuffer dst hlen src blen => exact fieldsSelectTheOperation p 3 0 dst hlen src blen (by decide) hi
  | decodeBuffer dst blen src hlen => exact fieldsSelectTheOperation p 4 0 dst blen src hlen (by decide) hi

/-- Settles O3: both words have the op-code of the instruction. -/
theorem decodedIsWellFormed : Obligations.DecodedIsWellFormed := by
  unfold Obligations.DecodedIsWellFormed
  intro p w i h
  have hi := decode_wellFormed h
  refine ⟨hi, encode_lt hi, ?_⟩
  rw [← opField_eq, ← opField_eq, opField_encode, opField_of_decode h]

/-- Settles O5, by running the decoder on the six words. -/
theorem testVectorWordsDecode : Obligations.TestVectorWordsDecode := by
  unfold Obligations.TestVectorWordsDecode
  decide

end Sys2Proof

namespace Sys2Proof.Machine

/-! ## A command word at the port of a block -/

/-- An idle block refuses a word with a reserved op-code (R76). -/
theorem offerCommand_reserved {s : State} {k w op : Nat} (rest : List Event) (run : Instr → State → Res State)
    (hk : k < s.blocks.length) (hb : s.busy k = false) (hd : decode s.params w = .error (.reservedOp op)) :
    offerCommand k w rest s run = .refused (.reservedOp op) := by
  rw [offerCommand, if_neg (Nat.not_le.mpr hk), hb, if_neg Bool.false_ne_true, withDecoded, State.taken_params, hd]

/-- A busy block does not accept a word but makes its next move (R79). -/
theorem offerCommand_busy {s : State} {k : Nat} (w : Nat) (rest : List Event) (run : Instr → State → Res State)
    (hk : k < s.blocks.length) (hb : s.busy k = true) : offerCommand k w rest s run = advance (s.turnOf k) := by
  rw [offerCommand, if_neg (Nat.not_le.mpr hk), if_pos hb]

/-- Settles O4: `op` is the word modulo 8, and an idle block refuses what decodes to no instruction. -/
theorem reservedOpIsRefused : Obligations.ReservedOpIsRefused := by
  unfold Obligations.ReservedOpIsRefused
  intro s k w rest hw hk hb
  rw [← opField_eq]
  refine ⟨exists_decode_of_op_le_four hw, fun hop => ?_⟩
  have hd := decode_reservedOp hw hop
  exact ⟨offerCommand_reserved rest exec hk hb hd, offerCommand_reserved rest begin hk hb hd⟩

/-- Settles O37: the step is the block's move, and a move leaves the inbox as it is. -/
theorem busyBlockAcceptsNothing : Obligations.BusyBlockAcceptsNothing := by
  unfold Obligations.BusyBlockAcceptsNothing
  intro s t k w rest hk hb hinbox
  have hstep : step s = advance (s.turnOf k) := by
    rcases hinbox with hinbox | hinbox <;> rw [step, stepEvent, hinbox]
    · exact offerCommand_busy w rest exec hk hb
    · exact offerCommand_busy w rest begin hk hb
  refine ⟨hstep, fun ht => ?_⟩
  obtain ⟨hkept, _⟩ := advance_leavesOthers (hstep.symm.trans ht)
  exact hkept

/-! ## A primitive operation as a command -/

/-- `is_hex_digit` delivers its unit's output (R101). -/
theorem exec_isHexDigit (c : Byte) (s : State) : exec (.isHexDigit c) s = .next (s.deliver (isHexDigit c).toNat) := rfl

/-- `nibble_to_hex_char` delivers its unit's output (R111). -/
theorem exec_nibbleToHexChar (v : Byte) (s : State) :
    exec (.nibbleToHexChar v) s = .next (s.deliver (nibbleToHexChar v).toNat) := rfl

/-- `hex_char_to_nibble` delivers its unit's output (R121). -/
theorem exec_hexCharToNibble (h : Byte) (s : State) :
    exec (.hexCharToNibble h) s = .next (s.deliver (hexCharToNibble h).toNat) := rfl

/-- Settles O8: each primitive operation delivers its unit's output, and a delivery alone is the completed state. -/
theorem commandGivesThePortValue : Obligations.CommandGivesThePortValue := by
  unfold Obligations.CommandGivesThePortValue
  intro x s
  rw [exec_isHexDigit, exec_nibbleToHexChar, exec_hexCharToNibble]
  have hdeliver (v : Nat) : s.deliver v = Safety.completed s s.mem v := deliver_eq_completed s s.mem v
  exact ⟨congrArg _ (hdeliver _), congrArg _ (hdeliver _), congrArg _ (hdeliver _)⟩

end Sys2Proof.Machine

/-! # The classifier: its two comparisons, and its answer as a command -/

namespace Sys2Proof.Machine

open Sys2Proof.Safety

/-! ## The two comparisons of the classifier -/

/-- A wraparound subtraction with one bound tests a range (R102, R103): below the range it wraps above the bound. -/
theorem sub_toNat_le_iff {lo : Byte} {n : Nat} (c : Byte) (hn : lo.toNat + n < 256) :
    (c - lo).toNat ≤ n ↔ lo.toNat ≤ c.toNat ∧ c.toNat ≤ lo.toNat + n := by
  rcases Nat.lt_or_ge c.toNat lo.toNat with hbelow | hle
  · rw [BitVec.toNat_sub_of_lt hbelow]
    omega
  · rw [BitVec.toNat_sub_of_le hle]
    omega

/-- The decimal test is the comparison `sub8(c, 0x30) <= 9` (R101). -/
theorem decimalTest_iff_sub (c : Byte) : decimalTest c = true ↔ (c - 0x30#8).toNat ≤ 9 := decide_eq_true_iff

/-- The letter test is the comparison `sub8(c | 0x20, 0x61) <= 5` (R101). -/
theorem letterTest_iff_sub (c : Byte) : letterTest c = true ↔ ((c ||| 0x20#8) - 0x61#8).toNat ≤ 5 :=
  decide_eq_true_iff

/-- Setting bit 5 takes exactly the letters A to F and a to f to a to f (R103). -/
theorem or_caseBit_mem_letters_iff (c : Byte) :
    0x61 ≤ (c ||| 0x20#8).toNat ∧ (c ||| 0x20#8).toNat ≤ 0x66 ↔
      (0x41 ≤ c.toNat ∧ c.toNat ≤ 0x46) ∨ (0x61 ≤ c.toNat ∧ c.toNat ≤ 0x66) := by
  revert c
  exact forall_byte (by decide)

/-- Settles O7: each comparison tests a range, setting bit 5 folds the letters' case, and the ranges do not meet. -/
theorem classifierComparisons : Obligations.ClassifierComparisons := by
  unfold Obligations.ClassifierComparisons
  intro c
  have hdecimal : (c - 0x30#8).toNat ≤ 9 ↔ 0x30 ≤ c.toNat ∧ c.toNat ≤ 0x39 :=
    sub_toNat_le_iff c (by decide)
  have hfolded : ((c ||| 0x20#8) - 0x61#8).toNat ≤ 5 ↔ 0x61 ≤ (c ||| 0x20#8).toNat ∧ (c ||| 0x20#8).toNat ≤ 0x66 :=
    sub_toNat_le_iff (c ||| 0x20#8) (by decide)
  have hletter := hfolded.trans (or_caseBit_mem_letters_iff c)
  refine ⟨hdecimal, hletter, hfolded, decimalTest_iff_sub c, letterTest_iff_sub c, ?_⟩
  rw [decimalTest_iff_sub, letterTest_iff_sub, hdecimal, hletter]
  omega

/-! ## `is_hex_digit` as a command -/

/-- The classifier's output as a number: 1 on the 22 codes and 0 elsewhere (R100). -/
theorem isHexDigit_toNat (c : Byte) : (isHexDigit c).toNat = if IsHexCode c then 1 else 0 := by
  by_cases hc : IsHexCode c
  · rw [if_pos hc, (isHexDigit_iff c).mpr hc, Bool.toNat_true]
  · rw [if_neg hc, Bool.eq_false_iff.mpr (mt (isHexDigit_iff c).mp hc), Bool.toNat_false]

/-- Settles O6: the command delivers the classifier's output, which is 1 exactly on the 22 codes. -/
theorem classifierAnswersTheRanges : Obligations.ClassifierAnswersTheRanges := by
  unfold Obligations.ClassifierAnswersTheRanges
  intro c s
  obtain ⟨hexec, _, _⟩ := commandGivesThePortValue c s
  rw [hexec, isHexDigit_toNat]

end Sys2Proof.Machine

/-! # The nibble encoder: its answer as a command, and the round trips with the nibble decoder -/

namespace Sys2Proof.Machine

open Sys2Proof.Safety

/-! ## `nibble_to_hex_char` as a command -/

/-- Settles O9: the command delivers the encoder's output, whose value is the closed form. -/
theorem nibbleEncoderClosedForm : Obligations.NibbleEncoderClosedForm := by
  unfold Obligations.NibbleEncoderClosedForm
  intro v s
  obtain ⟨_, hexec, _⟩ := commandGivesThePortValue v s
  rw [hexec, nibbleToHexChar_toNat]

/-- The encoder gives a byte and its low nibble the same character (R113). -/
theorem nibbleToHexChar_and_lowNibble (v : Byte) : nibbleToHexChar (v &&& 0x0F#8) = nibbleToHexChar v := by
  have hlow : (v &&& 0x0F#8).toNat = v.toNat % 16 := Nat.and_two_pow_sub_one_eq_mod v.toNat 4
  apply BitVec.eq_of_toNat_eq
  rw [nibbleToHexChar_toNat, nibbleToHexChar_toNat, hlow, Nat.mod_mod]

/-- Settles O10: both commands deliver the same character, so they complete in the same state. -/
theorem nibbleEncoderIgnoresHighBits : Obligations.NibbleEncoderIgnoresHighBits := by
  unfold Obligations.NibbleEncoderIgnoresHighBits
  intro v s
  rw [exec_nibbleToHexChar, exec_nibbleToHexChar, nibbleToHexChar_and_lowNibble]
  exact ⟨rfl, _, rfl⟩

/-! ## From a nibble to its character and back -/

/-- What the encoder gives is a hex digit (R116). -/
theorem isHexCode_nibbleToHexChar (v : Byte) : IsHexCode (nibbleToHexChar v) := by
  rw [IsHexCode, nibbleToHexChar_toNat, lowerDigit]
  split <;> omega

/-- The character of a nibble stands for that nibble in the table of R84. -/
theorem digitValue_nibbleToHexChar (v : Byte) : digitValue (nibbleToHexChar v) = v.toNat % 16 := by
  rw [digitValue, nibbleToHexChar_toNat, lowerDigit]
  by_cases hdecimal : v.toNat % 16 ≤ 9
  · rw [if_pos hdecimal, if_pos (by omega)]
    omega
  · rw [if_neg hdecimal, if_neg (by omega), if_neg (by omega), if_pos (by omega)]
    omega

/-- `to_upper` takes a hex digit to a hex digit of the same value (D25, R84). -/
theorem toUpper_keeps_digit (h : Byte) (hh : IsHexCode h) :
    IsHexCode (toUpper h) ∧ digitValue (toUpper h) = digitValue h := by
  revert h
  exact forall_byte (by decide)

/-- On a hex digit the letters' fold sets bit 5 of all but the decimal digits (R86, R116). -/
theorem lowered_of_hex (h : Byte) (hh : IsHexCode h) :
    lowered h = if h.toNat ≤ 0x39 then h else h ||| 0x20#8 := by
  revert h
  exact forall_byte (by decide)

/-- Encoding the decoded value of a hex digit gives the digit in lower case (R116). -/
theorem nibbleToHexChar_hexCharToNibble {h : Byte} (hh : IsHexCode h) :
    nibbleToHexChar ((hexCharToNibble h).setWidth 8) = lowered h := by
  have hnibble : ((hexCharToNibble h).setWidth 8).toNat = digitValue h := by
    rw [BitVec.toNat_setWidth_of_le (by decide), hexCharToNibble_of_hex hh]
  apply BitVec.eq_of_toNat_eq
  rw [nibbleToHexChar_toNat, hnibble, Nat.mod_eq_of_lt (digitValue_lt h), lowerDigit_digitValue hh]

/-- Settles O14: a nibble's character is a hex digit that stands for the nibble, in either case, and a hex
digit's value is encoded as the digit in lower case. -/
theorem nibbleRoundTrip : Obligations.NibbleRoundTrip := by
  unfold Obligations.NibbleRoundTrip
  constructor
  · intro k hk
    have hhex : IsHexCode (nibbleToHexChar k) := isHexCode_nibbleToHexChar k
    have hvalue : digitValue (nibbleToHexChar k) = k.toNat := by
      rw [digitValue_nibbleToHexChar, Nat.mod_eq_of_lt hk]
    obtain ⟨hupperHex, hupperValue⟩ := toUpper_keeps_digit _ hhex
    refine ⟨?_, ?_, (isHexDigit_iff _).mpr hhex⟩
    · rw [hexCharToNibble_of_hex hhex, hvalue]
    · rw [hexCharToNibble_of_hex hupperHex, hupperValue, hvalue]
  · intro h hh
    rw [nibbleToHexChar_hexCharToNibble hh, lowered_of_hex h hh]

end Sys2Proof.Machine

/-! # The nibble decoder: its answer as a command, and both cases of a letter -/

namespace Sys2Proof.Machine

open Sys2Proof.Safety

/-! ## `hex_char_to_nibble` as a command -/

/-- Settles O11: the command delivers the decoder's output, which on a hex digit is the digit's value. -/
theorem nibbleDecoderOnHexDigits : Obligations.NibbleDecoderOnHexDigits := by
  unfold Obligations.NibbleDecoderOnHexDigits
  intro h s hh
  obtain ⟨_, _, hexec⟩ := commandGivesThePortValue h s
  rw [hexec, hexCharToNibble_of_hex hh]

/-- Settles O12: the command delivers the decoder's output, which on any other character is the free value. -/
theorem nibbleDecoderOnOthers : Obligations.NibbleDecoderOnOthers := by
  unfold Obligations.NibbleDecoderOnOthers
  intro h s hh
  obtain ⟨_, _, hexec⟩ := commandGivesThePortValue h s
  rw [hexec, hexCharToNibble_of_not_hex hh]

/-! ## Both cases of a letter -/

/-- Setting bit 5 of an uppercase hex letter adds 0x20: the bit was clear (R86). -/
theorem or_caseBit_toNat_of_upper (h : Byte) (hlo : 0x41 ≤ h.toNat) (hhi : h.toNat ≤ 0x46) :
    (h ||| 0x20#8).toNat = h.toNat + 0x20 := by
  revert h
  exact forall_byte (by decide)

/-- An uppercase hex letter and its lowercase form stand for the same value (R84). -/
theorem digitValue_or_caseBit {h : Byte} (hlo : 0x41 ≤ h.toNat) (hhi : h.toNat ≤ 0x46) :
    digitValue (h ||| 0x20#8) = digitValue h := by
  have hupper : digitValue h = h.toNat - 0x41 + 10 := by
    rw [digitValue, if_neg (by omega), if_pos ⟨hlo, hhi⟩]
  have hlower : digitValue (h ||| 0x20#8) = h.toNat + 0x20 - 0x61 + 10 := by
    rw [digitValue, or_caseBit_toNat_of_upper h hlo hhi, if_neg (by omega), if_neg (by omega), if_pos (by omega)]
  omega

/-- The decoder gives an uppercase hex letter and its lowercase form the same nibble (R127). -/
theorem hexCharToNibble_or_caseBit {h : Byte} (hlo : 0x41 ≤ h.toNat) (hhi : h.toNat ≤ 0x46) :
    hexCharToNibble (h ||| 0x20#8) = hexCharToNibble h := by
  have hupper : IsHexCode h := .inr (.inl ⟨hlo, hhi⟩)
  have hlower : IsHexCode (h ||| 0x20#8) := .inr (.inr ((or_caseBit_mem_letters_iff h).mpr (.inl ⟨hlo, hhi⟩)))
  apply BitVec.eq_of_toNat_eq
  rw [hexCharToNibble_of_hex hlower, hexCharToNibble_of_hex hupper, digitValue_or_caseBit hlo hhi]

/-- Settles O13: both commands deliver the same nibble, so they have the same outcome. -/
theorem nibbleDecoderIgnoresCase : Obligations.NibbleDecoderIgnoresCase := by
  unfold Obligations.NibbleDecoderIgnoresCase
  intro h s hlo hhi
  rw [exec_hexCharToNibble, exec_hexCharToNibble, hexCharToNibble_or_caseBit hlo hhi]

end Sys2Proof.Machine

/-! # The buffer encoder: its result and count as a command, and the values a command in flight holds -/

namespace Sys2Proof.Machine

open Sys2Proof.Safety

/-! ## `encode_buffer` as one step -/

/-- `encode_buffer` completes exactly where it is ready, and then with the `2n` characters written and counted
(R131, R133). -/
theorem exec_encodeBuffer_eq_next {dst hlen src blen : Nat} {s t : State} :
    exec (.encodeBuffer dst hlen src blen) s = .next t ↔
      Ready s { dir := .encode, dst, dcap := hlen, src, slen := blen } ∧
      t = completed s (changes (encodeChange dst src) 0 (min blen (hlen / 2)) s.mem)
        (2 * min blen (hlen / 2)) :=
  execEncodeBuffer_eq_next

/-- Settles O15: the iterations write the two characters of each byte they read, and write nothing that they read. -/
theorem encodeBufferCompletes : Obligations.EncodeBufferCompletes := by
  unfold Obligations.EncodeBufferCompletes
  intro s dst hlen src blen hm hready
  obtain ⟨hspace, hdisjoint⟩ := ready_encode hready
  refine ⟨_, exec_encodeBuffer_eq_next.mpr ⟨hready, rfl⟩, fun k hk => ?_, fun a ha => changes_encode_other _ ha⟩
  obtain ⟨hhigh, hlow⟩ := changes_encode_data hm _ hspace hdisjoint k hk
  rw [hhigh, hlow]
  exact ⟨highChar_toNat _, lowChar_toNat _⟩

/-- Settles O16: the count is `2 * min blen (hlen / 2)`. -/
theorem encodeCountBounds : Obligations.EncodeCountBounds := by
  unfold Obligations.EncodeCountBounds
  intro s t dst hlen src blen hactive hx
  obtain ⟨_, rfl⟩ := exec_encodeBuffer_eq_next.mp hx
  exact ⟨_, completed_response _ _ _ hactive, by omega, by omega, by omega, fun hroom => by omega⟩

/-- Without an iteration `encode_buffer` completes in every state, with nothing written (R42, R133). -/
theorem exec_encodeBuffer_no_iterations {hlen blen : Nat} (hn : min blen (hlen / 2) = 0) (dst src : Nat) (s : State) :
    exec (.encodeBuffer dst hlen src blen) s = .next (completed s s.mem 0) :=
  exec_no_iterations (job := { dir := .encode, dst, dcap := hlen, src, slen := blen }) rfl hn s

/-- Settles O17: without room for two characters there is no iteration. -/
theorem encodeWithoutRoom : Obligations.EncodeWithoutRoom := by
  unfold Obligations.EncodeWithoutRoom
  intro s dst hlen src blen hroom
  have hn : min blen (hlen / 2) = 0 := by omega
  exact exec_encodeBuffer_no_iterations hn dst src s

/-- Settles O18: without a byte to read there is no iteration. -/
theorem encodeEmptySource : Obligations.EncodeEmptySource := by
  unfold Obligations.EncodeEmptySource
  intro s dst hlen src
  exact exec_encodeBuffer_no_iterations (Nat.zero_min _) dst src s

/-- Settles O19: the capacity alone bounds the iterations, so the bytes past `hlen / 2` add none. -/
theorem encodeTruncates : Obligations.EncodeTruncates := by
  unfold Obligations.EncodeTruncates
  intro s dst hlen src blen hshort
  have hn : min (hlen / 2) (hlen / 2) = min blen (hlen / 2) := by omega
  refine ⟨fun hclear => ?_, fun t hactive hx => ?_⟩
  · have hfewer : hlen / 2 ≤ blen := by omega
    exact execEncodeBuffer_congr hn.symm hclear (clear_of_smaller hclear hn rfl rfl hfewer le_rfl)
  · obtain ⟨_, rfl⟩ := exec_encodeBuffer_eq_next.mp hx
    have hcount : 2 * min blen (hlen / 2) = hlen - hlen % 2 := by omega
    rw [← hcount]
    exact ⟨completed_response _ _ _ hactive, fun a ha => changes_encode_other _ ha⟩

/-! ## The values a command in flight holds -/

/-- The lengths of a command whose operands fit their fields fit `LW` bits, whichever side they are on (R71, R72). -/
theorem lengths_lt {p : Params} {job : Job} (hf : p.FieldsFit job.dst job.dcap job.src job.slen) :
    job.blen < 2 ^ p.lw ∧ job.hlen < 2 ^ p.lw := by
  obtain ⟨_, hcap, _, hlen⟩ := hf
  unfold Job.blen Job.hlen
  cases job.dir
  · exact ⟨hlen, hcap⟩
  · exact ⟨hcap, hlen⟩

/-- No index of a command in flight overflows: `hlen` is below an even `2 ^ LW`, and `j` is even and at most `hlen`
(R137, R157). -/
theorem flight_indices_lt {p : Params} {f : Flight} (hlw : 1 ≤ p.lw) (h : FlightOk p f) :
    f.i < 2 ^ p.lw ∧ f.j + 1 < 2 ^ p.lw := by
  obtain ⟨hblen, hhlen⟩ := lengths_lt h.fields
  have hpair := h.pair
  have hbound : f.i ≤ min f.job.blen (f.job.hlen / 2) := h.bound
  have heven : 2 ^ p.lw = 2 * 2 ^ (p.lw - 1) := (mul_pow_sub_one (by omega) 2).symm
  omega

/-- An element of a footprint that does not wrap is one of the address space (R42). -/
theorem Span.Has.lt_of_fits {sp : Span} {aw a : Nat} (ha : sp.Has a) (h : sp.Fits aw) : a < 2 ^ aw := by
  obtain ⟨hlo, hhi⟩ := ha
  omega

/-- The byte of an iteration of `encode_buffer` lies in its read footprint (R48). -/
theorem encode_readSpan {job : Job} (hd : job.dir = .encode) {i : Nat} (hi : i < job.iterations) :
    job.readSpan.Has (job.src + i) := by
  simp only [Span.Has, Job.readSpan, hd]
  omega

/-- The second character of an iteration of `decode_buffer` lies in its read footprint (R49). -/
theorem decode_readSpan {job : Job} (hd : job.dir = .decode) {i : Nat} (hi : i < job.iterations) :
    job.readSpan.Has (job.src + 2 * i + 1) := by
  simp only [Span.Has, Job.readSpan, hd]
  omega

/-- Settles O42: `j` is even and within a length of `LW` bits, and an iteration stays in footprints that do not wrap. -/
theorem transientValuesFit : Obligations.TransientValuesFit := by
  unfold Obligations.TransientValuesFit
  intro p f ⟨_, hlw⟩ hok
  obtain ⟨hi, hj⟩ := flight_indices_lt (by omega) hok
  obtain ⟨hreads, hwrites, _⟩ := hok.placed
  rw [hok.pair] at hj ⊢
  refine ⟨hi, by omega, hj, countAt_lt hok.fields hok.bound, fun hlt => ⟨fun hd => ⟨?_, ?_⟩, fun hd => ⟨?_, ?_⟩⟩⟩
  · exact (encode_readSpan hd hlt).lt_of_fits hreads
  · exact (encode_writeSpan hd hlt (.inr rfl)).lt_of_fits hwrites
  · exact (decode_readSpan hd hlt).lt_of_fits hreads
  · exact (decode_writeSpan hd hlt).lt_of_fits hwrites

end Sys2Proof.Machine

/-! # The buffer decoder: its result and count as a command, and the round trips with the buffer encoder -/

namespace Sys2Proof.Machine

open Sys2Proof.Safety

/-! ## The byte of a pair of characters -/

/-- The decoder's output as a number: the digit's value, or the free value of any other character (R120, R123). -/
theorem hexCharToNibble_toNat (h : Byte) :
    (hexCharToNibble h).toNat = if IsHexCode h then digitValue h else (Config.decInvalid h).toNat := by
  split
  · next hh => exact hexCharToNibble_of_hex hh
  · next hh => rw [hexCharToNibble_of_not_hex hh]

/-- Each character of a pair gives its half of the byte by itself (R151, R156). -/
theorem pairByte_halves (hi lo : Byte) :
    (pairByte hi lo).toNat / 16 = (hexCharToNibble hi).toNat ∧
    (pairByte hi lo).toNat % 16 = (hexCharToNibble lo).toNat := by
  have hlow : (hexCharToNibble lo).toNat < 16 := (hexCharToNibble lo).isLt
  rw [pairByte, packNibbles_toNat]
  omega

/-- The byte of a pair of hex digits (R154). -/
theorem pairByte_of_hex {hi lo : Byte} (hhi : IsHexCode hi) (hlo : IsHexCode lo) :
    (pairByte hi lo).toNat = 16 * digitValue hi + digitValue lo := by
  rw [pairByte, packNibbles_toNat, hexCharToNibble_of_hex hhi, hexCharToNibble_of_hex hlo]

/-- A hex digit and its lower case decode to one nibble (R127). -/
theorem hexCharToNibble_lowered {h : Byte} (hh : IsHexCode h) : hexCharToNibble (lowered h) = hexCharToNibble h := by
  unfold lowered
  split
  · next hupper => exact hexCharToNibble_or_caseBit hupper.1 (by omega)
  · rfl

/-- Hex digits that differ in case only decode to one nibble (R127). -/
theorem hexCharToNibble_eq_of_lowered_eq {g h : Byte} (hg : IsHexCode g) (hh : IsHexCode h)
    (hcase : lowered g = lowered h) : hexCharToNibble g = hexCharToNibble h := by
  rw [← hexCharToNibble_lowered hg, hcase, hexCharToNibble_lowered hh]

/-- The characters of the byte of two hex digits are those digits in lower case (R161). -/
theorem chars_of_pairByte {hi lo : Byte} (hhi : IsHexCode hi) (hlo : IsHexCode lo) :
    highChar (pairByte hi lo) = lowered hi ∧ lowChar (pairByte hi lo) = lowered lo := by
  obtain ⟨hhigh, hlow⟩ := pairByte_halves hi lo
  constructor <;> apply BitVec.eq_of_toNat_eq
  · rw [highChar_toNat, hhigh, hexCharToNibble_of_hex hhi, lowerDigit_digitValue hhi]
  · rw [lowChar_toNat, hlow, hexCharToNibble_of_hex hlo, lowerDigit_digitValue hlo]

/-! ## `decode_buffer` as one step -/

/-- `decode_buffer` completes exactly where it is ready, and then with the `n` bytes written and counted
(R151, R153). -/
theorem exec_decodeBuffer_eq_next {dst blen src hlen : Nat} {s t : State} :
    exec (.decodeBuffer dst blen src hlen) s = .next t ↔
      Ready s { dir := .decode, dst, dcap := blen, src, slen := hlen } ∧
      t = completed s (changes (decodeChange dst src) 0 (min blen (hlen / 2)) s.mem) (min blen (hlen / 2)) :=
  execDecodeBuffer_eq_next

/-- Each byte that a ready `decode_buffer` writes is that of its pair in the source as it was (R56, R151). -/
theorem decodeBuffer_byte {dst blen src hlen : Nat} {s : State} (hm : s.mem.wf s.params.aw = true)
    (hready : Ready s { dir := .decode, dst, dcap := blen, src, slen := hlen }) {k : Nat}
    (hk : k < min blen (hlen / 2)) :
    (changes (decodeChange dst src) 0 (min blen (hlen / 2)) s.mem).read (dst + k)
      = pairByte (s.mem.read (src + 2 * k)) (s.mem.read (src + 2 * k + 1)) := by
  obtain ⟨hspace, hdisjoint⟩ := ready_decode hready
  exact changes_decode_data hm _ hspace hdisjoint k hk

/-- Settles O21: the byte written for a pair of hex digits is `16 * high + low`. -/
theorem decodeBufferCompletes : Obligations.DecodeBufferCompletes := by
  unfold Obligations.DecodeBufferCompletes
  intro s dst blen src hlen hm hready
  refine ⟨_, exec_decodeBuffer_eq_next.mpr ⟨hready, rfl⟩, fun k hk hhi hlo => ?_,
    fun a ha => changes_decode_other _ ha⟩
  rw [decodeBuffer_byte hm hready hk, pairByte_of_hex hhi hlo]

/-- Settles O22: each half of the byte written for a pair is what the decoder gives its character. -/
theorem decodeWithInvalidCharacters : Obligations.DecodeWithInvalidCharacters := by
  unfold Obligations.DecodeWithInvalidCharacters
  intro s dst blen src hlen hm hready
  refine ⟨_, exec_decodeBuffer_eq_next.mpr ⟨hready, rfl⟩, fun k hk => ?_, fun a ha => changes_decode_other _ ha⟩
  rw [decodeBuffer_byte hm hready hk, ← hexCharToNibble_toNat, ← hexCharToNibble_toNat]
  exact pairByte_halves _ _

/-- Without an iteration `decode_buffer` completes in every state, with nothing written (R42, R153). -/
theorem exec_decodeBuffer_no_iterations {blen hlen : Nat} (hn : min blen (hlen / 2) = 0) (dst src : Nat) (s : State) :
    exec (.decodeBuffer dst blen src hlen) s = .next (completed s s.mem 0) :=
  exec_no_iterations (job := { dir := .decode, dst, dcap := blen, src, slen := hlen }) rfl hn s

/-- Settles O23: the count is `min blen (hlen / 2)`, and without a character there is no iteration. -/
theorem decodeCountBounds : Obligations.DecodeCountBounds := by
  unfold Obligations.DecodeCountBounds
  constructor
  · intro s t dst blen src hlen hactive hx
    obtain ⟨_, rfl⟩ := exec_decodeBuffer_eq_next.mp hx
    exact ⟨_, completed_response _ _ _ hactive, Nat.min_le_left _ _, Nat.min_le_right _ _, Nat.min_eq_right⟩
  · intro s dst blen src
    exact exec_decodeBuffer_no_iterations (Nat.min_zero _) dst src s

/-- Two `decode_buffer` commands with the same bases and the same number of iterations do the same, if no buffer of
either lies on a device (R49, R53). -/
theorem execDecodeBuffer_congr {s : State} {dst blen blen' src hlen hlen' : Nat}
    (hn : min blen (hlen / 2) = min blen' (hlen' / 2))
    (hc : Clear s { dir := .decode, dst, dcap := blen, src, slen := hlen })
    (hc' : Clear s { dir := .decode, dst, dcap := blen', src, slen := hlen' }) :
    execDecodeBuffer dst blen src hlen s = execDecodeBuffer dst blen' src hlen' s := by
  simp only [execDecodeBuffer_eq_runs, accept_of_clear hc, accept_of_clear hc', Job.readSpan, Job.writeSpan,
    Job.iterations, Job.blen, Job.hlen, hn]

/-- A shorter source that leaves `decode_buffer` its iterations leaves it its outcome, if no buffer lies on a device
(R49, R53). -/
theorem exec_decodeBuffer_shorter {s : State} {dst blen src hlen hlen' : Nat}
    (hc : Clear s { dir := .decode, dst, dcap := blen, src, slen := hlen })
    (hn : min blen (hlen' / 2) = min blen (hlen / 2)) (hshort : hlen' ≤ hlen) :
    exec (.decodeBuffer dst blen src hlen) s = exec (.decodeBuffer dst blen src hlen') s :=
  execDecodeBuffer_congr hn.symm hc (clear_of_smaller hc hn rfl rfl hshort le_rfl)

/-- Settles O24: the unpaired character adds no iteration, and alone it makes none. -/
theorem decodeOddLength : Obligations.DecodeOddLength := by
  unfold Obligations.DecodeOddLength
  constructor
  · intro s dst blen src m hclear
    have hn : min blen (2 * m / 2) = min blen ((2 * m + 1) / 2) := by omega
    exact exec_decodeBuffer_shorter hclear hn (Nat.le_succ _)
  · intro s dst blen src
    exact exec_decodeBuffer_no_iterations (Nat.min_zero _) dst src s

/-- Settles O25: the capacity alone bounds the iterations, so the characters past `2 * blen` add none. -/
theorem decodeTruncates : Obligations.DecodeTruncates := by
  unfold Obligations.DecodeTruncates
  refine ⟨fun s dst blen src hlen hlong => ⟨fun hclear => ?_, fun t hactive hx => ?_⟩, fun s dst src hlen => ?_⟩
  · have hn : min blen (2 * blen / 2) = min blen (hlen / 2) := by omega
    exact exec_decodeBuffer_shorter hclear hn (by omega)
  · obtain ⟨_, rfl⟩ := exec_decodeBuffer_eq_next.mp hx
    rw [Nat.min_eq_left hlong.le]
    exact ⟨completed_response _ _ _ hactive, fun a ha => changes_decode_other _ ha⟩
  · exact exec_decodeBuffer_no_iterations (Nat.zero_min _) dst src s

/-- Settles O26: readiness does not look at memory, and pairs that differ in case only have the same byte. -/
theorem decodeIgnoresCase : Obligations.DecodeIgnoresCase := by
  unfold Obligations.DecodeIgnoresCase
  intro s t m' dst blen src hlen hm hm' hcase hx
  obtain ⟨hready, rfl⟩ := exec_decodeBuffer_eq_next.mp hx
  have hready' := (ready_withMem m').mpr hready
  refine ⟨_, exec_decodeBuffer_eq_next.mpr ⟨hready', rfl⟩, rfl, fun k hk => ?_⟩
  have hnibble (j : Nat) (hj : j < 2 * min blen (hlen / 2)) :
      hexCharToNibble (m'.read (src + j)) = hexCharToNibble (s.mem.read (src + j)) := by
    obtain ⟨hhex, hhex', hlowered⟩ := hcase j hj
    exact hexCharToNibble_eq_of_lowered_eq hhex' hhex hlowered
  have hfirst := hnibble (2 * k) (by omega)
  have hsecond := hnibble (2 * k + 1) (by omega)
  have hbyte' := decodeBuffer_byte hm' hready' hk
  have hbyte := decodeBuffer_byte hm hready hk
  rw [pairByte, Nat.add_assoc, hfirst, hsecond] at hbyte'
  exact hbyte'.trans hbyte.symm

/-! ## The round trips (R161) -/

/-- The two characters that a ready `encode_buffer` writes for a byte are those of the source as it was
(R56, R131). -/
theorem encodeBuffer_chars {dst hlen src blen : Nat} {s : State} (hm : s.mem.wf s.params.aw = true)
    (hready : Ready s { dir := .encode, dst, dcap := hlen, src, slen := blen }) {k : Nat}
    (hk : k < min blen (hlen / 2)) :
    (changes (encodeChange dst src) 0 (min blen (hlen / 2)) s.mem).read (dst + 2 * k)
      = highChar (s.mem.read (src + k)) ∧
    (changes (encodeChange dst src) 0 (min blen (hlen / 2)) s.mem).read (dst + 2 * k + 1)
      = lowChar (s.mem.read (src + k)) := by
  obtain ⟨hspace, hdisjoint⟩ := ready_encode hready
  exact changes_encode_data hm _ hspace hdisjoint k hk

/-- A buffer command that completes keeps the canonical form of the memory (R40). -/
theorem exec_job_mem_wf {s t : State} {i : Instr} {job : Job} (hj : jobOf i = some job)
    (hm : s.mem.wf s.params.aw = true) (hx : exec i s = .next t) : t.mem.wf t.params.aw = true := by
  obtain ⟨hready, rfl⟩ := (exec_job_eq_next hj).mp hx
  exact jobResult_wf hready hm

/-- The response of a command that completes after another at the same block (R78, R79). -/
theorem completed_completed_response {s : State} (m m' : Memory) (v v' : Nat) (h : s.active < s.blocks.length) :
    (completed (completed s m v) m' v').response s.active = some v' :=
  completed_response (completed s m v) m' v' (h.trans_eq (List.length_modify ..).symm)

/-- Settles O27: the characters of a byte decode to it, and the byte of two hex digits encodes to them in lower case. -/
theorem bufferRoundTrip : Obligations.BufferRoundTrip := by
  unfold Obligations.BufferRoundTrip
  constructor
  · intro s t h hlen b len b2 blen hm hactive hroom hroom' hx hready'
    have hn : min len (hlen / 2) = len := by omega
    have hn' : min blen (2 * len / 2) = len := by omega
    have hm' := exec_job_mem_wf rfl hm hx
    obtain ⟨hready, rfl⟩ := exec_encodeBuffer_eq_next.mp hx
    refine ⟨_, exec_decodeBuffer_eq_next.mpr ⟨hready', rfl⟩, ?_, fun k hk => ?_⟩
    · rw [completed_completed_response _ _ _ _ hactive, hn']
    · obtain ⟨hhigh, hlow⟩ := encodeBuffer_chars hm hready (hk.trans_eq hn.symm)
      calc _ = pairByte (highChar (s.mem.read (b + k))) (lowChar (s.mem.read (b + k))) :=
            (decodeBuffer_byte hm' hready' (hk.trans_eq hn'.symm)).trans (congrArg₂ pairByte hhigh hlow)
        _ = s.mem.read (b + k) := pairByte_of_chars _
  · intro s t b blen h len h2 hlen hm hactive hroom hroom' hhex hx hready'
    have hn : min blen (2 * len / 2) = len := by omega
    have hn' : min len (hlen / 2) = len := by omega
    have hm' := exec_job_mem_wf rfl hm hx
    obtain ⟨hready, rfl⟩ := exec_decodeBuffer_eq_next.mp hx
    refine ⟨_, exec_encodeBuffer_eq_next.mpr ⟨hready', rfl⟩, ?_, fun k hk => ?_⟩
    · rw [completed_completed_response _ _ _ _ hactive, hn']
    · obtain ⟨j, hj⟩ := Nat.even_or_odd' k
      have hpair : j < len := by omega
      have hbyte := decodeBuffer_byte hm hready (hpair.trans_eq hn.symm)
      obtain ⟨hhigh, hlow⟩ := encodeBuffer_chars hm' hready' (hpair.trans_eq hn'.symm)
      obtain ⟨hfirst, hsecond⟩ := chars_of_pairByte (hhex (2 * j) (by omega)) (hhex (2 * j + 1) (by omega))
      rcases hj with rfl | rfl
      · exact hhigh.trans ((congrArg highChar hbyte).trans hfirst)
      · exact hlow.trans ((congrArg lowChar hbyte).trans hsecond)

end Sys2Proof.Machine

namespace Sys2Proof.Machine

/-! ## A step with an empty inbox -/

/-- A block that exists is busy exactly if it has a command in flight. -/
theorem busy_of_lt {s : State} {k : Nat} (hk : k < s.blocks.length) : s.busy k = s.blocks[k].flight.isSome := by
  rw [State.busy, List.getElem?_eq_getElem hk, Option.bind_some]

/-- A busy block exists. -/
theorem lt_of_busy {s : State} {k : Nat} (hb : s.busy k = true) : k < s.blocks.length := by
  by_contra hk
  rw [State.busy, List.getElem?_eq_none (Nat.not_lt.mp hk)] at hb
  cases hb

/-- With no command in flight, nothing happens (R183). -/
theorem stepQuiet_idle {s : State} (hidle : ∀ k, s.busy k = false) : stepQuiet s = .next s := by
  have hnone : (s.blocks.findIdx? fun b => b.flight.isSome) = none := by
    refine List.findIdx?_eq_none_iff.mpr fun b hb => ?_
    obtain ⟨k, hk, rfl⟩ := List.mem_iff_getElem.mp hb
    exact (busy_of_lt hk).symm.trans (hidle k)
  rw [stepQuiet, hnone]

/-- The first block with a command in flight makes its next move (log 10). -/
theorem stepQuiet_first {s : State} {k : Nat} (hb : s.busy k = true) (hfirst : ∀ j < k, s.busy j = false) :
    stepQuiet s = advance (s.turnOf k) := by
  have hk := lt_of_busy hb
  have hsome : (s.blocks.findIdx? fun b => b.flight.isSome) = some k := by
    refine List.findIdx?_eq_some_iff_getElem.mpr ⟨hk, (busy_of_lt hk).symm.trans hb, fun j hj => ?_⟩
    rw [← busy_of_lt (hj.trans hk), hfirst j hj]
    exact Bool.false_ne_true
  rw [stepQuiet, hsome]

/-- Settles O54: the search for the first command in flight finds none, or block `k`. -/
theorem quietStepMovesTheFirstBusyBlock : Obligations.QuietStepMovesTheFirstBusyBlock := by
  unfold Obligations.QuietStepMovesTheFirstBusyBlock
  intro s hinbox
  have hstep : step s = stepQuiet s := by rw [step, stepEvent, hinbox]
  exact ⟨fun hidle => hstep.trans (stepQuiet_idle hidle),
    fun k hb hfirst => hstep.trans (stepQuiet_first hb hfirst)⟩

end Sys2Proof.Machine

namespace Sys2Proof.Machine

/-! ## The reset input of a block -/

/-- A step with a reset input at the head of the inbox takes that input. -/
theorem step_reset (s : State) (k : Nat) (rest : List Event) :
    step { s with inbox := .reset k :: rest } = resetBlock k rest s := rfl

/-- The reset input leaves a block with no command in flight idle, and the memory untouched (R190, R191). -/
theorem resetBlock_idle {s : State} {k : Nat} (rest : List Event) (hk : k < s.blocks.length)
    (hb : s.busy k = false) :
    resetBlock k rest s = .next { s with blocks := s.blocks.set k Block.idle, inbox := rest } := by
  rw [resetBlock, if_neg (Nat.not_le.mpr hk), hb, if_neg Bool.false_ne_true]

/-- The reset input of a block with a command in flight is no move of the model (R191, U6, log 8). -/
theorem resetBlock_busy {s : State} {k : Nat} (rest : List Event) (hb : s.busy k = true) :
    resetBlock k rest s = .refused (.resetInFlight k) := by
  rw [resetBlock, if_neg (Nat.not_le.mpr (lt_of_busy hb)), if_pos hb]

/-- Settles O38: the block passes both of the reset's checks, it exists and is not busy. -/
theorem resetInputLeavesTheBlockIdle : Obligations.ResetInputLeavesTheBlockIdle := by
  unfold Obligations.ResetInputLeavesTheBlockIdle
  intro s k rest hk hb
  exact (step_reset s k rest).trans (resetBlock_idle rest hk hb)

/-- Settles O39: the block exists, so it is the command in flight that stops the reset. -/
theorem resetInFlightIsRefused : Obligations.ResetInFlightIsRefused := by
  unfold Obligations.ResetInFlightIsRefused
  intro s k rest _ hb
  exact (step_reset s k rest).trans (resetBlock_busy rest hb)

end Sys2Proof.Machine
